-- ==== Sys2Proof/Word.lean ====
section
/-! DEFINITION. The word types of SRTX (00_scope.md section 4): a request word, its value field, a byte, and the
characters of a text line. -/

namespace Sys2Proof

/-- A byte of a request word laid out as bytes (log 13). -/
abbrev Byte := BitVec 8

/-- A request value, and the register `sr` (R14, R62). -/
abbrev Value := BitVec 16

/-- A request word `{CH[1:0], VALUE[15:0]}` (R60). -/
abbrev ReqWord := BitVec 18

/-- A sequence of characters of the serial line (R121, R122). -/
abbrev Text := List Char

end Sys2Proof
end

