-- ==== Sys2Proof/Config.lean ====
section
/-! DEFINITION. What is fixed for one SRTX machine: the channel table (R11), the implementation parameters (R6), the
front-end's failure causes and output vocabulary, and the free values the spec leaves open. -/

namespace Sys2Proof

/-- A channel (target group): a code, one wire triple and one chain (R2, R11). -/
inductive Channel where
  | A | B | C | D
deriving DecidableEq, Repr

/-- The four channels in the order of R11, which is also the order of the startup clear (R191). -/
def Channel.all : List Channel := [.A, .B, .C, .D]

/-- The two-bit code `CH` (R11, R41). -/
def Channel.code : Channel → BitVec 2
  | .A => 0b00#2
  | .B => 0b01#2
  | .C => 0b10#2
  | .D => 0b11#2

/-- The code as a number, 0 to 3. -/
def Channel.index : Channel → Nat
  | .A => 0
  | .B => 1
  | .C => 2
  | .D => 3

/-- The transmission width `WIDTH[c]` (R11, R45). -/
def Channel.width : Channel → Nat
  | .A => 16
  | .B => 16
  | .C => 16
  | .D => 8

/-- The number `FIELDS[c]` of 4-bit diagnostic fields (R11, R138). -/
def Channel.fields : Channel → Nat
  | .A => 4
  | .B => 4
  | .C => 0
  | .D => 2

/-- The front-end keyword of the channel (R11, R65). -/
def Channel.keyword : Channel → Text
  | .A => ['m', 'u', 'x', 'B', 'E', '1', '2']
  | .B => ['m', 'u', 'x', 'B', 'E', '3', '4']
  | .C => ['E', 'N', 'A', 'B', 'L', 'E']
  | .D => ['m', 'u', 'x', 'T', 'E']

/-- One value of type `α` per channel: `X[c]` of the spec's notation. -/
structure PerChannel (α : Type) where
  a : α
  b : α
  c : α
  d : α
deriving DecidableEq, Repr

/-- `X[c]`. -/
def PerChannel.get {α : Type} (x : PerChannel α) : Channel → α
  | .A => x.a
  | .B => x.b
  | .C => x.c
  | .D => x.d

/-- `X[c] <- v`. -/
def PerChannel.set {α : Type} (x : PerChannel α) (ch : Channel) (v : α) : PerChannel α :=
  match ch with
  | .A => { x with a := v }
  | .B => { x with b := v }
  | .C => { x with c := v }
  | .D => { x with d := v }

/-- The value of `f` for each channel. -/
def PerChannel.tabulate {α : Type} (f : Channel → α) : PerChannel α :=
  { a := f .A, b := f .B, c := f .C, d := f .D }

/-- The three lines of a wire triple (R12, R13). -/
inductive Line where
  | data | clk | lat
deriving DecidableEq, Repr

/-- One wire event `Drive(L[c], b)` (00_scope.md section 4). -/
structure WireEvent where
  ch    : Channel
  line  : Line
  level : Bool
deriving DecidableEq, Repr

/-- The parameter `HEX_OVERFLOW` (R6, R129). -/
inductive HexOverflow where
  | truncate | reject
deriving DecidableEq, Repr

/-- The implementation parameters of R6. Times are in one common unit that the model does not fix. -/
structure Params where
  /-- `DWELL`: block-clock cycles per wire event, at least 1 (R96). -/
  dwell       : Nat
  /-- `CHAIN_LEN[c]`: the number of shift stages of each chain (R18). -/
  chainLen    : PerChannel Nat
  hexOverflow : HexOverflow
  /-- The period `t_clk` of the block clock (R201). -/
  tClk        : Nat
  tSu         : Nat
  tHd         : Nat
  tCkh        : Nat
  tCkl        : Nat
  tLatw       : Nat
  tCl         : Nat
deriving DecidableEq, Repr

/-- Why the literal parser fails, before the group is attached (R128 to R133). -/
inductive ParseFailure where
  | format
  | range
  | binlen (w : Nat)
deriving DecidableEq, Repr

/-- A front-end failure with the information it carries (R171). -/
inductive Failure where
  | format (g : Channel)
  | range (g : Channel)
  | binlen (g : Channel) (w : Nat)
  | unknown
deriving DecidableEq, Repr

/-- What the report of a successful command says, in the order of R136 (1) to (3). Digits are numbers, most
significant first; `fields` is M1, M2, ... (R138). -/
structure Report where
  group   : Channel
  decimal : List Nat
  fields  : List (BitVec 4)
  binary  : List Nat
  hex     : List Nat
deriving DecidableEq, Repr

/-- One `emit` of the front-end (R136, R141, R173). Its characters are `REPORT_TEXT` (log 12). -/
inductive Emission where
  | banner
  | usageHelp
  | report (r : Report)
  | confirmation (g : Channel)
  | diagnostic (f : Failure)
deriving DecidableEq, Repr

namespace Config

/-- `S_POWERON[c]`, a free value: stage `k` of channel `c`'s chain at power-on (R22, R194, D16; log 3). -/
opaque sPowerOn : Channel → Nat → Bool

/-- `Q_POWERON[c]`, a free value: output `k` of channel `c`'s chain at power-on (R22, R194, D16; log 3). -/
opaque qPowerOn : Channel → Nat → Bool

/-- `DWELL - 1` of the default machine: OPEN (R6, D10; log 9). -/
opaque dwellLessOne : Nat

/-- The electrical parameters of the default machine: OPEN (R6, R201, D10; log 11). -/
opaque tClk  : Nat
opaque tSu   : Nat
opaque tHd   : Nat
opaque tCkh  : Nat
opaque tCkl  : Nat
opaque tLatw : Nat
opaque tCl   : Nat

/-- `REPORT_TEXT`: every character the spec does not quote is a free value (R6, D24; log 12). -/
opaque bannerText       : Text
opaque usageText        : Text
opaque reportText       : Report → Text
opaque confirmationText : Channel → Text
opaque diagnosticBefore : Failure → Text
opaque diagnosticAfter  : Failure → Text

/-- The default machine: `CHAIN_LEN[c] = WIDTH[c]` (D15), `HEX_OVERFLOW = TRUNCATE` (D19), the rest open. -/
def params : Params :=
  { dwell       := dwellLessOne + 1
    chainLen    := PerChannel.tabulate Channel.width
    hexOverflow := .truncate
    tClk        := tClk
    tSu         := tSu
    tHd         := tHd
    tCkh        := tCkh
    tCkl        := tCkl
    tLatw       := tLatw
    tCl         := tCl }

end Config

end Sys2Proof
end

