-- ==== Sys2Proof/Machine/State.lean ====
section
/-! DEFINITION. State, as plain data: the registers and ports of the block, the downstream chains, the front-end and
its serial line (10_state.md); the reasons a step can stop; the state after reset (R22). -/

namespace Sys2Proof.Machine

/-- The states of the control FSM (R14). They play the role of a program counter (R16). -/
inductive EngineState where
  | clearNext | idle | latLo | setData | clkHi | clkLo | latHi
deriving DecidableEq, Repr

/-- The output line registers `DATA[c]`, `CLK[c]`, `LAT[c]` of one channel (R13). -/
structure Lines where
  data : Bool
  clk  : Bool
  lat  : Bool
deriving DecidableEq, Repr

/-- The downstream chain of one channel (R18): `stages` is `S[c]` and `outs` is `Q[c]`, bit 0 first. `CHAIN_LEN[c]` is
the length of the lists (log 10). -/
structure Chain where
  stages : List Bool
  outs   : List Bool
deriving DecidableEq, Repr

/-- Where the front-end procedure is (R121, R135, R141; log 16). -/
inductive FrontEnd where
  /-- Before its startup output (R141). -/
  | startup
  /-- Startup output emitted; waiting for the end of the startup clear (R141). -/
  | awaitClear
  /-- Idle, waiting for a line (R121). -/
  | idle
  /-- Processing: `line` was read and is about to be dispatched (R121, R123). -/
  | dispatching (line : Text)
  /-- Processing: the request for group `g` is asserted and not yet accepted (R135). -/
  | requesting (g : Channel)
  /-- Processing: the request was accepted; waiting for `req_ready` (R135). -/
  | awaiting (g : Channel)
deriving DecidableEq, Repr

/-- The two dispatcher states of R20 and R121. -/
inductive DispatcherState where
  | idle | processing
deriving DecidableEq, Repr

/-- The dispatcher state the front-end is in (R20, R121; R22: `Idle` once startup output is emitted). DESIGN CHOICE (log
23): it is `Idle` before that output too, where the spec names no state. -/
def FrontEnd.dispatcher : FrontEnd → DispatcherState
  | .startup => .idle
  | .awaitClear => .idle
  | .idle => .idle
  | .dispatching _ => .processing
  | .requesting _ => .processing
  | .awaiting _ => .processing

/-- Why the machine stops with a fault. The block itself raises nothing (R170). -/
inductive Fault where
  /-- The requester changed `req_ch` or `req_value` while `req_valid = 1`, before the block accepted the request (R199,
  93_implementation_defined.md I10). Raised by `clockEdge` and `step`, before the edge takes effect. Safe: the hardware
  goes on with whichever word is on the ports. -/
  | requestChanged
deriving DecidableEq, Repr

/-- Why a step is refused. Nothing refuses in this model: every instruction has its meaning. -/
inductive Refusal where
  /-- An instruction without a meaning; raised by no arm. Safe. -/
  | notModelled (mnemonic : String)
deriving DecidableEq, Repr

/-- Everything the spec gives the machine (INVENTORY.md, State). -/
structure State where
  /-- `DATA[c]`, `CLK[c]`, `LAT[c]` (R13). -/
  lines    : PerChannel Lines
  /-- The control FSM state (R14). -/
  st       : EngineState
  /-- Channel of the transmission in progress (R14). -/
  ch       : Channel
  /-- Value of the transmission in progress, as accepted (R14). -/
  sr       : Value
  /-- Bits still to be clocked (R14). -/
  cnt      : BitVec 5
  /-- Cycles spent in the current wire-event state (R14, R96). -/
  dw       : Nat
  /-- The startup clear is running (R14). -/
  boot     : Bool
  /-- The next channel the startup clear will clear (R14). -/
  clr      : BitVec 3
  /-- Input port `rst` (R12). -/
  rst      : Bool
  /-- Input port `req_valid` (R12). -/
  reqValid : Bool
  /-- Input port `req_ch` (R12). -/
  reqCh    : BitVec 2
  /-- Input port `req_value` (R12). -/
  reqValue : Value
  /-- The model's own: the word sampled with `req_valid = 1` at the last edge and not accepted (R199; log 5). -/
  held     : Option ReqWord
  /-- `S[c]` and `Q[c]` (R18). -/
  chains   : PerChannel Chain
  /-- The front-end (R20). -/
  fe       : FrontEnd
  /-- Characters of the serial line the front-end has not read (R121; log 7). -/
  rx       : Text
  /-- What the front-end has emitted, oldest first (R136; log 7). -/
  tx       : List Emission
deriving DecidableEq, Repr

/-- A chain at power-on: every stage and output a draw (R22, R194; log 3). -/
def Chain.powerOn (c : Channel) (len : Nat) : Chain :=
  { stages := (List.range len).map (Config.sPowerOn c)
    outs   := (List.range len).map (Config.qPowerOn c) }

/-- The machine with parameters `p` right after a power-on reset: the "while `rst = 1`" column of R22, in the first
cycle with `rst = 0` (R191). Ports and serial line: logs 4 and 7. -/
def State.resetWith (p : Params) : State :=
  { lines    := PerChannel.tabulate fun _ => { data := false, clk := false, lat := false }
    st       := .clearNext
    ch       := .A
    sr       := 0#16
    cnt      := 0#5
    dw       := 0
    boot     := true
    clr      := 0#3
    rst      := false
    reqValid := false
    reqCh    := 0#2
    reqValue := 0#16
    held     := none
    chains   := PerChannel.tabulate fun c => Chain.powerOn c (p.chainLen.get c)
    fe       := .startup
    rx       := []
    tx       := [] }

/-- The default machine right after reset. -/
def State.reset : State := State.resetWith Config.params

end Sys2Proof.Machine
end

