-- ==== Sys2Proof/Machine/Flags.lean ====
section
/-! DEFINITION. The block has no flags (R15, R16). What it shows are its status outputs and its lines (R12, R13, R15). -/

namespace Sys2Proof.Machine

/-- `req_ready = (st == IDLE) AND (rst == 0)` (R15). -/
def State.reqReady (s : State) : Bool := decide (s.st = .idle) && !s.rst

/-- `busy = NOT req_ready` (R15). -/
def State.busy (s : State) : Bool := !s.reqReady

/-- Output port `sdata_c`, driven from `DATA[c]` (R12, R13). -/
def State.sdata (s : State) (c : Channel) : Bool := (s.lines.get c).data

/-- Output port `sclk_c`, driven from `CLK[c]` (R12, R13). -/
def State.sclk (s : State) (c : Channel) : Bool := (s.lines.get c).clk

/-- Output port `slatch_c`, driven from `LAT[c]` (R12, R13). -/
def State.slatch (s : State) (c : Channel) : Bool := (s.lines.get c).lat

/-- Select field M(i+1) at the chain outputs: `Q[c][4i+3:4i]`, output `4i` first (R140, R182). -/
def State.selectField (s : State) (c : Channel) (i : Nat) : List Bool :=
  ((s.chains.get c).outs.drop (4 * i)).take 4

end Sys2Proof.Machine
end

