-- ==== Sys2Proof/Syntax.lean ====
section
/-! DEFINITION. The instructions: the four rows of opcode_table.json (R60 to R63). -/

namespace Sys2Proof

/-- One request of the block. The operand is the whole 16-bit `VALUE` field of the request word, the ignored bits of
TX_D included, since they reach `sr` (R62). -/
inductive Instr where
  /-- TX_A (R90): transmit `value` on channel A, 16 bits. -/
  | txA (value : Value)
  /-- TX_B (R91): transmit `value` on channel B, 16 bits. -/
  | txB (value : Value)
  /-- TX_C (R92): transmit `value` on channel C, 16 bits. -/
  | txC (value : Value)
  /-- TX_D (R93): transmit `value[7:0]` on channel D, 8 bits. -/
  | txD (value : Value)
deriving DecidableEq, Repr

/-- The channel an instruction transmits on (R61). -/
def Instr.channel : Instr → Channel
  | .txA _ => .A
  | .txB _ => .B
  | .txC _ => .C
  | .txD _ => .D

/-- The `VALUE` field of an instruction (R62). -/
def Instr.value : Instr → Value
  | .txA value => value
  | .txB value => value
  | .txC value => value
  | .txD value => value

/-- The mnemonic of opcode_table.json. -/
def Instr.mnemonic : Instr → String
  | .txA _ => "TX_A"
  | .txB _ => "TX_B"
  | .txC _ => "TX_C"
  | .txD _ => "TX_D"

/-- The instruction that transmits `value` on `ch`. -/
def Instr.transmit (ch : Channel) (value : Value) : Instr :=
  match ch with
  | .A => .txA value
  | .B => .txB value
  | .C => .txC value
  | .D => .txD value

end Sys2Proof
end

