-- ==== Sys2Proof/WellFormed.lean ====
section
/-! DEFINITION. The checks: which numbers are request words, which instructions are legal (all of them, R63), and which
parameter records are machines the spec allows (R6, R201). -/

namespace Sys2Proof

/-- A number is a request word when it has no bit above bit 17 (R60). -/
def requestWordFits (w : Nat) : Bool := decide (w < 2 ^ 18)

/-- Every instruction is legal: no channel code is reserved and no value is illegal (R63). -/
def Instr.wf : Instr → Bool
  | .txA _ => true
  | .txB _ => true
  | .txC _ => true
  | .txD _ => true

/-- `DWELL` is an integer of at least 1 (R6). -/
def Params.wf (p : Params) : Bool := decide (1 ≤ p.dwell)

/-- `DWELL * t_clk` is at least each electrical minimum (R201). -/
def Params.meetsMinimums (p : Params) : Bool :=
  [p.tSu, p.tHd, p.tCkh, p.tCkl, p.tLatw, p.tCl].all fun t => decide (t ≤ p.dwell * p.tClk)

end Sys2Proof
end

