-- ==== Sys2Proof/Decode.lean ====
section
/-! DEFINITION. The decoder of request words (R60 to R63), total on any bytes and rejecting by name, and after it the
encoder and the opcode table. -/

namespace Sys2Proof

/-- The channel of a code: every code selects one (R41, R61). -/
def Channel.ofCode (code : BitVec 2) : Channel :=
  if code = 0b00#2 then .A
  else if code = 0b01#2 then .B
  else if code = 0b10#2 then .C
  else .D

/-- Field `CH` of a request word, bits 17:16 (R60). -/
def chField (w : ReqWord) : BitVec 2 := w.extractLsb' 16 2

/-- Field `VALUE` of a request word, bits 15:0 (R60). -/
def valueField (w : ReqWord) : Value := w.extractLsb' 0 16

/-- The request a word stands for; total, since every word is legal (R61, R62, R63). -/
def decodeWord (w : ReqWord) : Instr :=
  match Channel.ofCode (chField w) with
  | .A => .txA (valueField w)
  | .B => .txB (valueField w)
  | .C => .txC (valueField w)
  | .D => .txD (valueField w)

/-- Why a byte sequence is no request word (log 13). -/
inductive DecodeReject where
  /-- Fewer than three bytes. -/
  | truncated
  /-- More than three bytes. -/
  | overlong
  /-- A bit above bit 17 is set. -/
  | strayBits
deriving DecidableEq, Repr

/-- The 18-bit word of three bytes, the first byte the least significant (log 13). -/
def wordOfBytes (b0 b1 b2 : Byte) : ReqWord := (b2 ++ b1 ++ b0 : BitVec 24).setWidth 18

/-- Decode one request laid out as bytes (log 13). -/
def decodeBytes : List Byte → Except DecodeReject Instr
  | [b0, b1, b2] =>
    if b2 &&& 0xFC#8 = 0#8 then .ok (decodeWord (wordOfBytes b0 b1 b2)) else .error .strayBits
  | [] => .error .truncated
  | [_] => .error .truncated
  | [_, _] => .error .truncated
  | _ :: _ :: _ :: _ :: _ => .error .overlong

/-- The three bytes of a number, the least significant first (log 13). -/
def bytesOfNat (w : Nat) : List Byte :=
  [BitVec.ofNat 8 w, BitVec.ofNat 8 (w / 2 ^ 8), BitVec.ofNat 8 (w / 2 ^ 16)]

/-- The decoder on a word numbered as opcode_table.json numbers it. `w` has no bit from the row's number of bits up, and
every request has the same three bytes, so that number plays no part. A word with a bit that no request word has is
refused (`DecodeReject.strayBits`). -/
def decodeTableWord (_nbits w : Nat) : Option Instr :=
  if w < 2 ^ 24 then
    match decodeBytes (bytesOfNat w) with
    | .ok i => some i
    | .error _ => none
  else none

/-- The request word of an instruction: `{CH, VALUE}` (R60, R61, R62). -/
def encode (i : Instr) : ReqWord := i.channel.code ++ i.value

/-- The request of an instruction laid out as bytes (log 13). -/
def encodeBytes (i : Instr) : List Byte := bytesOfNat (encode i).toNat

/-- One row of the opcode table: a word is the row's instruction when `word AND mask = match` (30_encoding.md, Opcode
map). -/
structure OpcodeRow where
  mnemonic : String
  mask     : ReqWord
  pattern  : ReqWord
deriving DecidableEq, Repr

/-- The opcode table (opcode_table.json; 30_encoding.md: `match = CH << 16`, `mask = 0x30000`). -/
def opcodeTable : List OpcodeRow :=
  [ { mnemonic := "TX_A", mask := 0x30000#18, pattern := 0x00000#18 },
    { mnemonic := "TX_B", mask := 0x30000#18, pattern := 0x10000#18 },
    { mnemonic := "TX_C", mask := 0x30000#18, pattern := 0x20000#18 },
    { mnemonic := "TX_D", mask := 0x30000#18, pattern := 0x30000#18 } ]

/-- The rows of the opcode table that a word matches. -/
def matchingRows (w : ReqWord) : List OpcodeRow :=
  opcodeTable.filter fun r => w &&& r.mask == r.pattern

end Sys2Proof
end

