-- ==== Sys2Proof/Machine/Operands.lean ====
section
/-! DEFINITION. Operands: the request word on the ports (R60), the operand bits a transmission emits (R43, R62), and
`zext_16` of a parsed value (R135). -/

namespace Sys2Proof.Machine

/-- The request word on the ports, `{req_ch, req_value}` (R60). -/
def State.portWord (s : State) : ReqWord := s.reqCh ++ s.reqValue

/-- The low `w` bits of a value in emission order, `v[w-1]` down to `v[0]` (R43, R82). Bits of `v` from `w` up are
ignored (R62). -/
def bitsMsbFirst : Nat → Value → List Bool
  | 0, _ => []
  | w + 1, v => v.getLsbD w :: bitsMsbFirst w v

/-- The low `w` bits of a value, bit 0 first: how a chain of `w` stages holds it (R44). -/
def bitsLsbFirst (w : Nat) (v : Value) : List Bool := (List.range w).map v.getLsbD

/-- `zext_16(n)`: the value field for a parsed value (R135). -/
def zext16 (n : Nat) : Value := BitVec.ofNat 16 n

/-- The ordered 4-bit fields of a value: field `i` is `value[4i+3:4i]` (R137). -/
def decompose (value : Value) (fieldCount : Nat) : List (BitVec 4) :=
  (List.range fieldCount).map fun i => value.extractLsb' (4 * i) 4

end Sys2Proof.Machine
end

