-- ==== Sys2Proof/Machine/Ops.lean ====
section
/-! DEFINITION. The operations the meanings share: wire events and the chains' reaction to them (R179 to R181),
accepting a request (R94), the end of a transmission (R95), reset (R190), the front-end's handling of a failure (R173),
and what the request ports' protocol asks (R199). -/

namespace Sys2Proof.Machine

/-! ### Setters, so that laws need no record update -/

/-- Write the line registers of channel `c`. -/
def State.setLines (s : State) (c : Channel) (l : Lines) : State := { s with lines := s.lines.set c l }

/-- Write the chain of channel `c`. -/
def State.setChain (s : State) (c : Channel) (k : Chain) : State := { s with chains := s.chains.set c k }

/-- Move the front-end. -/
def State.setFe (s : State) (f : FrontEnd) : State := { s with fe := f }

/-- `emit` (00_scope.md section 4), for a list of emissions in order. -/
def State.emit (s : State) (es : List Emission) : State := { s with tx := s.tx ++ es }

/-- Replace the unread characters of the serial line. -/
def State.setRx (s : State) (rx : Text) : State := { s with rx := rx }

/-- Note what the block sampled at this edge without accepting it (log 5). -/
def State.setHeld (s : State) (h : Option ReqWord) : State := { s with held := h }

/-- Drive `req_valid`. -/
def State.setValid (s : State) (v : Bool) : State := { s with reqValid := v }

/-- Present a request on the ports (R60). -/
def State.present (s : State) (code : BitVec 2) (value : Value) : State :=
  { s with reqValid := true, reqCh := code, reqValue := value }

/-! ### Chains -/

/-- A rising edge of `CLK[c]`: `S[c] <- {S[c][CHAIN_LEN[c]-2:0], DATA[c]}` (R179). -/
def Chain.shift (k : Chain) (d : Bool) : Chain :=
  { k with stages := (d :: k.stages).take k.stages.length }

/-- A rising edge of `LAT[c]`: `Q[c] <- S[c]` (R180). -/
def Chain.commit (k : Chain) : Chain := { k with outs := k.stages }

/-! ### Wire events -/

/-- The level of a line. -/
def Lines.level (l : Lines) : Line → Bool
  | .data => l.data
  | .clk => l.clk
  | .lat => l.lat

/-- A line driven to a level. -/
def Lines.drive (l : Lines) (which : Line) (b : Bool) : Lines :=
  match which with
  | .data => { l with data := b }
  | .clk => { l with clk := b }
  | .lat => { l with lat := b }

/-- What the chain of a channel does when line `which` of its triple, at levels `l`, is driven to `b`: it shifts on a
rising clock edge (R179), commits on a rising latch edge (R180), and is otherwise unchanged (R181). -/
def Chain.react (k : Chain) (l : Lines) (which : Line) (b : Bool) : Chain :=
  match which with
  | .data => k
  | .clk => if !l.clk && b then k.shift l.data else k
  | .lat => if !l.lat && b then k.commit else k

/-- `Drive(L[c], b)`: the line takes the level and the channel's chain reacts. -/
def drive (e : WireEvent) (s : State) : State :=
  (s.setChain e.ch ((s.chains.get e.ch).react (s.lines.get e.ch) e.line e.level)).setLines e.ch
    ((s.lines.get e.ch).drive e.line e.level)

/-- Wire events in order. -/
def driveAll (es : List WireEvent) (s : State) : State := es.foldl (fun t e => drive e t) s

/-! ### The engine's registers -/

/-- Load a transmission: `ch`, `sr`, `cnt <- WIDTH[ch]`, `dw <- 0`, `st <- LAT_LO` (R94; the same writes in the
`CLEAR_NEXT` row of R95). -/
def loadTransmission (c : Channel) (value : Value) (s : State) : State :=
  { s with ch := c, sr := value, cnt := BitVec.ofNat 5 c.width, dw := 0, st := .latLo }

/-- Where `LAT_HI` goes: `CLEAR_NEXT` while the startup clear runs, else `IDLE` (R95). -/
def afterLatHi (boot : Bool) : EngineState := if boot then .clearNext else .idle

/-- The engine's registers after the last event of a transmission (R95). -/
def finishTransmission (s : State) : State :=
  { s with cnt := 0#5, dw := 0, st := afterLatHi s.boot }

/-! ### Reset -/

/-- The front-end after a block reset: it starts again, and a request it was asserting is withdrawn (log 6);
the word stays on `req_ch` and `req_value` (log 24). -/
def restartFrontEnd (s : State) : State :=
  match s.fe with
  | .requesting _ => (s.setValid false).setFe .startup
  | .startup => s.setFe .startup
  | .awaitClear => s.setFe .startup
  | .idle => s.setFe .startup
  | .dispatching _ => s.setFe .startup
  | .awaiting _ => s.setFe .startup

/-- A rising edge of `clk` with `rst = 1` (R190): lines and registers take the "while `rst = 1`" column of R22; no line
rises, so no chain changes (R181, R196). -/
def resetEdge (s : State) : State :=
  restartFrontEnd
    { s with
      lines := PerChannel.tabulate fun _ => { data := false, clk := false, lat := false }
      st    := .clearNext
      ch    := .A
      sr    := 0#16
      cnt   := 0#5
      dw    := 0
      boot  := true
      clr   := 0#3
      held  := none }

/-- The block as the startup clear leaves it (R22, second column; R193), `rst` released, nothing held and the front-end
idle. Used only to say where a request word is placed for the next step (log 14). -/
def afterClear (s : State) : State :=
  { s with
    lines  := PerChannel.tabulate fun _ => { data := false, clk := false, lat := true }
    st     := .idle
    ch     := .D
    sr     := 0#16
    cnt    := 0#5
    dw     := 0
    boot   := false
    clr    := 4#3
    rst    := false
    held   := none
    chains := PerChannel.tabulate fun c =>
      { stages := List.replicate (s.chains.get c).stages.length false
        outs   := List.replicate (s.chains.get c).outs.length false }
    fe     := .idle }

/-! ### The request ports -/

/-- The requester fault of R199: at the last edge a request was presented and not accepted, and `req_valid` is still 1
with another word. Lowering `req_valid` is no change of `req_ch` or `req_value` (log 5). -/
def requestChanged (s : State) : Bool :=
  match s.held with
  | none => false
  | some w => s.reqValid && decide (w ≠ s.portWord)

/-- What the block samples and does not accept. -/
def sampled (s : State) : Option ReqWord := if s.reqValid then some s.portWord else none

/-- The requester's side of an acceptance: it lowers `req_valid` (R199); a front-end that was asserting the request
waits for its completion (R135). Another requester may present a further request before the next step (log 17).
DESIGN CHOICE (log 24): the word stays on `req_ch` and `req_value`; the spec gives them no level while `req_valid = 0`. -/
def releaseRequest (s : State) : State :=
  match s.fe with
  | .requesting g => ((s.setValid false).setHeld none).setFe (.awaiting g)
  | .startup => (s.setValid false).setHeld none
  | .awaitClear => (s.setValid false).setHeld none
  | .idle => (s.setValid false).setHeld none
  | .dispatching _ => (s.setValid false).setHeld none
  | .awaiting _ => (s.setValid false).setHeld none

/-! ### Taking a failure (the only exceptions of the system, R170, R173) -/

/-- A command fails: the diagnostic, then the usage help, then Idle (R173). No request is issued, so no line and no
chain changes. There is nothing to return from: the next line is handled from Idle (R174). -/
def failCommand (f : Failure) (s : State) : State :=
  (s.emit [.diagnostic f, .usageHelp]).setFe .idle

end Sys2Proof.Machine
end

