-- ==== Sys2Proof/Machine/Engine.lean ====
section
/-! DEFINITION. The reference FSM (R94 to R98), its startup clear (R191) and its reset (R190): at wire-event level
(`engineAdvance`: one state of R95 with its dwell collapsed) and at clock level (`clockEdge`: one rising edge of `clk`,
the port levels being those of State). -/

namespace Sys2Proof.Machine

/-- The line write of the current state (R95, second column). `DATA[ch] <- sr[cnt-1]`. -/
def lineEvent (s : State) : Option WireEvent :=
  match s.st with
  | .clearNext => none
  | .idle => none
  | .latLo => some { ch := s.ch, line := .lat, level := false }
  | .setData => some { ch := s.ch, line := .data, level := s.sr.getLsbD (s.cnt - 1#5).toNat }
  | .clkHi => some { ch := s.ch, line := .clk, level := true }
  | .clkLo => some { ch := s.ch, line := .clk, level := false }
  | .latHi => some { ch := s.ch, line := .lat, level := true }

/-- Perform the line write, which happens in the first cycle of a state (R95): `dw = 0`. -/
def writeLine (s : State) : State :=
  if s.dw = 0 then
    match lineEvent s with
    | some e => drive e s
    | none => s
  else s

/-- `CLEAR_NEXT` (R95, R191): load a zero transmission of the next channel, or end the clear. -/
def clearNext (s : State) : State :=
  if s.clr < 4#3 then
    { loadTransmission (Channel.ofCode (s.clr.setWidth 2)) 0#16 s with clr := s.clr + 1#3 }
  else { s with boot := false, st := .idle }

/-- The next state and register updates of R95, `dw` reset on entering the next state (R96). `IDLE` waits here; its
acceptance is `loadTransmission` (R94). -/
def transition (s : State) : State :=
  match s.st with
  | .clearNext => clearNext s
  | .idle => s
  | .latLo => { s with st := .setData, dw := 0 }
  | .setData => { s with st := .clkHi, dw := 0 }
  | .clkHi => { s with st := .clkLo, dw := 0 }
  | .clkLo =>
    { s with cnt := s.cnt - 1#5, st := if s.cnt - 1#5 = 0#5 then .latHi else .setData, dw := 0 }
  | .latHi => { s with st := afterLatHi s.boot, dw := 0 }

/-- One FSM state of R95 from its line write to its end, whatever `DWELL` is. -/
def engineAdvance (s : State) : State := transition (writeLine s)

/-- A wire-event state is held for `DWELL` cycles (R96). -/
def dwellCycle (dwell : Nat) (s : State) : State :=
  if s.dw + 1 < dwell then { writeLine s with dw := s.dw + 1 } else engineAdvance s

/-- One cycle of the FSM with `rst = 0` (R94, R95, R96). -/
def fsmCycle (dwell : Nat) (s : State) : State :=
  match s.st with
  | .clearNext => clearNext s
  | .idle => if s.reqValid then loadTransmission (Channel.ofCode s.reqCh) s.reqValue s else s
  | .latLo => dwellCycle dwell s
  | .setData => dwellCycle dwell s
  | .clkHi => dwellCycle dwell s
  | .clkLo => dwellCycle dwell s
  | .latHi => dwellCycle dwell s

/-- The block accepts the request on its ports in this cycle (R94). -/
def accepts (s : State) : Bool := s.reqReady && s.reqValid

/-- One rising edge of `clk` (R12): reset (R190), the requester fault (R199), or one FSM cycle. -/
def clockEdge (p : Params) (s : State) : Host.Outcome State Fault Refusal :=
  if s.rst then .next (resetEdge s)
  else if requestChanged s then .fault .requestChanged
  else .next ((fsmCycle p.dwell s).setHeld (if accepts s then none else sampled s))

/-- `n` rising edges of `clk` with the ports held at their levels. -/
def clockEdges (p : Params) : Nat → State → Host.Outcome State Fault Refusal
  | 0, s => .next s
  | n + 1, s =>
    match clockEdge p s with
    | .next t => clockEdges p n t
    | .fault r => .fault r
    | .refused r => .refused r

/-- The line write of one clock cycle, if it makes one: in the first cycle of a wire-event state, out of reset (R95). -/
def clockEvent (s : State) : Option WireEvent := if s.rst = false ∧ s.dw = 0 then lineEvent s else none

/-- The wire events of `n` rising edges of `clk`, in order, with the ports held at their levels. -/
def clockTrace (p : Params) : Nat → State → List WireEvent
  | 0, _ => []
  | n + 1, s =>
    match clockEdge p s with
    | .next t => (clockEvent s).toList ++ clockTrace p n t
    | .fault _ => []
    | .refused _ => []

/-- `n` FSM states. -/
def engineRun : Nat → State → State
  | 0, s => s
  | n + 1, s => engineRun n (engineAdvance s)

/-- The wire events the FSM drives in `n` FSM states, in order. -/
def engineTrace : Nat → State → List WireEvent
  | 0, _ => []
  | n + 1, s =>
    match lineEvent s with
    | some e => e :: engineTrace n (engineAdvance s)
    | none => engineTrace n (engineAdvance s)

end Sys2Proof.Machine
end

