-- ==== Sys2Proof/Machine/Frontend.lean ====
section
/-! DEFINITION. The command front-end (41_frontend.md): line framing (R122), keyword match (R123), the literal parser
(R126 to R134), the report (R136 to R138), failures (R171, R175), and the front-end's moves (R121, R135, R141). -/

namespace Sys2Proof.Machine

/-! ### Line framing -/

/-- `ReadLine`: the characters up to and including the first LF, and what follows; none while no LF has come (R121). -/
def readLine : Text → Option (Text × Text)
  | [] => none
  | x :: xs => if x = '\n' then some ([x], xs) else (readLine xs).map fun (l, r) => (x :: l, r)

/-- Remove a last character `x`, if the text ends in it. -/
def dropFinal (x : Char) (t : Text) : Text := if t.getLast? = some x then t.dropLast else t

/-- `StripTerminator`: remove the final LF, and a CR before it (R122). -/
def stripTerminator (line : Text) : Text :=
  if line.getLast? = some '\n' then dropFinal '\r' line.dropLast else line

/-! ### Keyword match -/

/-- What follows keyword `k` and one space, if the line starts with them (R123, R125). -/
def afterKeyword (k line : Text) : Option Text :=
  if (k ++ [' ']).isPrefixOf line then some (line.drop (k.length + 1)) else none

/-- The group whose keyword the line starts with, and the value token (R123, R125). -/
def matchKeyword (line : Text) : Option (Channel × Text) :=
  Channel.all.findSome? fun g => (afterKeyword g.keyword line).map fun token => (g, token)

/-! ### The literal parser -/

/-- The whitespace set: space, tab, LF, VT, FF, CR (R126). -/
def isSpace (x : Char) : Bool :=
  [0x20, 0x09, 0x0A, 0x0B, 0x0C, 0x0D].contains x.toNat

/-- `Trim` (R126). -/
def trim (t : Text) : Text := ((t.dropWhile isSpace).reverse.dropWhile isSpace).reverse

/-- The value of a decimal digit (R132). -/
def decDigit (x : Char) : Option Nat :=
  if 48 ≤ x.toNat ∧ x.toNat ≤ 57 then some (x.toNat - 48) else none

/-- The value of a hexadecimal digit of either case (R128). -/
def hexDigit (x : Char) : Option Nat :=
  if 48 ≤ x.toNat ∧ x.toNat ≤ 57 then some (x.toNat - 48)
  else if 97 ≤ x.toNat ∧ x.toNat ≤ 102 then some (x.toNat - 87)
  else if 65 ≤ x.toNat ∧ x.toNat ≤ 70 then some (x.toNat - 55)
  else none

/-- The value of a binary digit (R131). -/
def binDigit (x : Char) : Option Nat :=
  if x = '0' then some 0 else if x = '1' then some 1 else none

/-- The digits of a text, if every character is one. -/
def digitsOf (digit : Char → Option Nat) : Text → Option (List Nat)
  | [] => some []
  | x :: xs =>
    match digit x, digitsOf digit xs with
    | some d, some ds => some (d :: ds)
    | _, _ => none

/-- The exact value of digits in a base, most significant first. -/
def positional (base : Nat) (ds : List Nat) : Nat := ds.foldl (fun n d => n * base + d) 0

/-- The exact value of a non-empty text of digits, or FORMAT (R128, R131, R132). -/
def digitsValue (base : Nat) (digit : Char → Option Nat) (t : Text) : Except ParseFailure Nat :=
  if t = [] then .error .format
  else
    match digitsOf digit t with
    | some ds => .ok (positional base ds)
    | none => .error .format

/-- The hexadecimal path, on what follows `0x` (R128, R129). -/
def parseHex (hex : HexOverflow) (w : Nat) (r : Text) : Except ParseFailure Nat :=
  match digitsValue 16 hexDigit r with
  | .error e => .error e
  | .ok n =>
    if n ≤ 2 ^ w - 1 then .ok n
    else
      match hex with
      | .truncate => .ok (n % 2 ^ w)
      | .reject => .error .range

/-- The binary path, on what follows `0b`: the length first (R130, R131). -/
def parseBin (w : Nat) (r : Text) : Except ParseFailure Nat :=
  if w < r.length then .error (.binlen w) else digitsValue 2 binDigit r

/-- The decimal path (R132, R133). -/
def parseDec (w : Nat) (t : Text) : Except ParseFailure Nat :=
  match digitsValue 10 decDigit t with
  | .error e => .error e
  | .ok n => if n ≤ 2 ^ w - 1 then .ok n else .error .range

/-- Form selection on a trimmed token (R127). -/
def parseForm (hex : HexOverflow) (w : Nat) (t : Text) : Except ParseFailure Nat :=
  if ['0', 'x'].isPrefixOf t then parseHex hex w (t.drop 2)
  else if ['0', 'b'].isPrefixOf t then parseBin w (t.drop 2)
  else parseDec w t

/-- `Parse(token, W)` (41_frontend.md section 3). -/
def parse (hex : HexOverflow) (w : Nat) (token : Text) : Except ParseFailure Nat :=
  parseForm hex w (trim token)

/-! ### Failures -/

/-- A parse failure of group `g`'s token (R171, R172). -/
def failureOfParse (g : Channel) : ParseFailure → Failure
  | .format => .format g
  | .range => .range g
  | .binlen w => .binlen g w

/-- The failure codes (R171). -/
def failureCode : Failure → Nat
  | .format _ => 1
  | .range _ => 2
  | .binlen _ _ => 3
  | .unknown => 4

/-! ### The report -/

/-- The digits of a number, most significant first, with no leading zero. -/
def toBase (base : Nat) : Nat → Nat → List Nat
  | 0, _ => []
  | fuel + 1, n => if n < base then [n] else toBase base fuel (n / base) ++ [n % base]

/-- The decimal digits of a number. -/
def decimalDigits (n : Nat) : List Nat := toBase 10 (n + 1) n

/-- Exactly `k` digits of a number, most significant first. -/
def fixedDigits (base : Nat) : Nat → Nat → List Nat
  | 0, _ => []
  | k + 1, n => fixedDigits base k (n / base) ++ [n % base]

/-- `Report(g, n)`: decimal, fields M1.., W binary digits, W/4 hexadecimal digits (R136, R138). -/
def reportOf (g : Channel) (n : Nat) : Report :=
  { group   := g
    decimal := decimalDigits n
    fields  := decompose (zext16 n) g.fields
    binary  := fixedDigits 2 g.width n
    hex     := fixedDigits 16 (g.width / 4) n }

/-- The characters of decimal digits. -/
def digitsText (ds : List Nat) : Text := ds.map fun d => Char.ofNat (48 + d)

/-- The part of a diagnostic the spec quotes (R171). -/
def failureFragment : Failure → Text
  | .format _ => "invalid format".toList
  | .range _ => "out of range".toList
  | .binlen _ w => "Binary string too long (max ".toList ++ digitsText (decimalDigits w) ++ " bits)".toList
  | .unknown => "Unknown command prefix".toList

/-- The characters of an emission: `REPORT_TEXT`, with the quoted diagnostic fragments in place (R171, R172, D24;
log 12). -/
def emissionText : Emission → Text
  | .banner => Config.bannerText
  | .usageHelp => Config.usageText
  | .report r => Config.reportText r
  | .confirmation g => Config.confirmationText g
  | .diagnostic f => Config.diagnosticBefore f ++ failureFragment f ++ Config.diagnosticAfter f

/-! ### The front-end's moves -/

/-- The decision of `Dispatch(line)` (R123 to R125): the group and parsed value, or the failure. -/
def dispatch (hex : HexOverflow) (line : Text) : Except Failure (Channel × Nat) :=
  match matchKeyword line with
  | none => .error .unknown
  | some (g, token) =>
    match parse hex g.width token with
    | .ok n => .ok (g, n)
    | .error f => .error (failureOfParse g f)

/-- Handle a dispatched line: fail (R173), or report and assert one request (R135, R136). -/
def dispatchLine (hex : HexOverflow) (line : Text) (s : State) : State :=
  match dispatch hex line with
  | .error f => failCommand f s
  | .ok (g, n) => ((s.emit [.report (reportOf g n)]).present g.code (zext16 n)).setFe (.requesting g)

/-- Idle: take one line if a whole one is there; an empty one leaves it Idle with no output (R121, R122). -/
def pollLine (s : State) : State :=
  match readLine s.rx with
  | none => s
  | some (line, rest) =>
    if stripTerminator line = [] then s.setRx rest
    else (s.setRx rest).setFe (.dispatching (stripTerminator line))

/-- The front-end's startup output (R141). -/
def startupOutput (s : State) : State := (s.emit [.banner, .usageHelp]).setFe .awaitClear

/-- One move of the front-end. -/
def frontEndMove (hex : HexOverflow) (s : State) : State :=
  match s.fe with
  | .startup => startupOutput s
  | .awaitClear => if s.reqReady then (s.emit [.banner, .usageHelp]).setFe .idle else s
  | .idle => pollLine s
  | .dispatching line => dispatchLine hex line s
  | .requesting _ => s.setValid true
  | .awaiting g => if s.reqReady then (s.emit [.confirmation g, .usageHelp]).setFe .idle else s

end Sys2Proof.Machine
end

