-- ==== Sys2Proof/Machine/Agents.lean ====
section
/-! DEFINITION. Which agent moves when no request is accepted (log 2), and where a request word is placed (log 14). -/

namespace Sys2Proof.Machine

/-- A move of an agent other than the acceptance of a request: the front-end's startup output first, then the busy
engine, then the front-end (log 2). -/
def agentMove (hex : HexOverflow) (s : State) : State :=
  if s.fe = .startup then startupOutput s
  else if s.st = .idle then frontEndMove hex s
  else engineAdvance s

/-- A machine in which a request can be placed: itself if it is ready, else the one the startup clear leaves (R192,
R197; log 14). -/
def readied (s : State) : State := if s.reqReady then s.setHeld none else afterClear s

/-- Request word `w` placed on the ports (R60). -/
def placeWord (w : ReqWord) (s : State) : State := (readied s).present (chField w) (valueField w)

end Sys2Proof.Machine
end

