-- ==== Sys2Proof/Machine/Transmit.lean ====
section
/-! DEFINITION. The transmit family (40_transmit.md): the event sequence of `Transmit(c, v)` (R80) and the meanings of
TX_A to TX_D (R90 to R93). -/

namespace Sys2Proof.Machine

/-- The three events of one bit: data, clock high, clock low (R80, D9). -/
def bitEvents (c : Channel) (b : Bool) : List WireEvent :=
  [ { ch := c, line := .data, level := b },
    { ch := c, line := .clk, level := true },
    { ch := c, line := .clk, level := false } ]

/-- The wire events of `Transmit(c, v)`, `v = VALUE[WIDTH[c]-1:0]`, in order (R80). -/
def transmitEvents (c : Channel) (value : Value) : List WireEvent :=
  { ch := c, line := .lat, level := false } ::
    ((bitsMsbFirst c.width value).flatMap (bitEvents c) ++ [{ ch := c, line := .lat, level := true }])

/-- One request, from its acceptance (R94) to the state after its last wire event (R80, R95). -/
def runTransmission (c : Channel) (value : Value) (s : State) : State :=
  finishTransmission (driveAll (transmitEvents c value) (loadTransmission c value s))

/-- TX_A (R90): `Transmit(A, VALUE[15:0])`. -/
def execTxA (value : Value) (s : State) : Host.Outcome State Fault Refusal :=
  .next (runTransmission .A value s)

/-- TX_B (R91): `Transmit(B, VALUE[15:0])`. -/
def execTxB (value : Value) (s : State) : Host.Outcome State Fault Refusal :=
  .next (runTransmission .B value s)

/-- TX_C (R92): `Transmit(C, VALUE[15:0])`. -/
def execTxC (value : Value) (s : State) : Host.Outcome State Fault Refusal :=
  .next (runTransmission .C value s)

/-- TX_D (R93): `Transmit(D, VALUE[7:0])`. -/
def execTxD (value : Value) (s : State) : Host.Outcome State Fault Refusal :=
  .next (runTransmission .D value s)

end Sys2Proof.Machine
end

