-- ==== Sys2Proof/Machine/Dispatch.lean ====
section
/-! DEFINITION. The dispatch: one arm per instruction. -/

namespace Sys2Proof.Machine

def exec (i : Instr) (s : State) : Host.Outcome State Fault Refusal :=
  match i with
  | .txA value => Sys2Proof.Machine.execTxA value s
  | .txB value => Sys2Proof.Machine.execTxB value s
  | .txC value => Sys2Proof.Machine.execTxC value s
  | .txD value => Sys2Proof.Machine.execTxD value s

end Sys2Proof.Machine
end

