-- ==== Sys2Proof/Machine/Step.lean ====
section
/-! DEFINITION. One step of the machine (logs 1 and 2): a reset edge, the requester fault, one accepted request run
whole, or a move of the engine or the front-end. -/

namespace Sys2Proof.Machine

/-- The requester's side added to the outcome of an accepted request (R199, R135). -/
def released : Host.Outcome State Fault Refusal → Host.Outcome State Fault Refusal
  | .next t => .next (releaseRequest t)
  | .fault r => .fault r
  | .refused r => .refused r

/-- One step of the machine with parameters `p`. -/
def stepWith (p : Params) (s : State) : Host.Outcome State Fault Refusal :=
  if s.rst then .next (resetEdge s)
  else if requestChanged s then .fault .requestChanged
  else if accepts s then released (exec (decodeWord s.portWord) s)
  else .next ((agentMove p.hexOverflow s).setHeld (sampled s))

/-- One step of the default machine. -/
def step (s : State) : Host.Outcome State Fault Refusal := stepWith Config.params s

/-- `s` with the instruction whose bits are `w` on the request ports of a ready block, so that the next step accepts and
runs it (log 14). Only bits 17:0 exist on the ports (R60); every request has them all, so the row's number of bits plays
no part. -/
def State.withFetchWord (s : State) (_nbits w : Nat) : State := placeWord (BitVec.ofNat 18 w) s

end Sys2Proof.Machine
end

