-- ==== Sys2Proof/Safety.lean ====
section
/-! DEFINITION. What a safe run is, and the invariants of the machine that claims use. -/

namespace Sys2Proof.Safety

open Sys2Proof.Machine

/-- A wire-event state of the FSM: a transmission is in progress (R95). -/
def Transmitting (s : State) : Prop := s.st ≠ .idle ∧ s.st ≠ .clearNext

/-- Channel `c` has a transmission in progress. -/
def Active (s : State) (c : Channel) : Prop := Transmitting s ∧ c = s.ch

/-- The startup clear is over, or it has already loaded channel `c` (R191). -/
def Cleared (s : State) (c : Channel) : Prop := s.boot = false ∨ c.index < s.clr.toNat

/-- The clock line of the channel in progress is high: between the line write of CLK_HI and that of CLK_LO (R95). -/
def PulseHigh (s : State) : Prop := (s.st = .clkHi ∧ 0 < s.dw) ∨ (s.st = .clkLo ∧ s.dw = 0)

/-- The latch of the channel in progress is low: from the line write of LAT_LO to that of LAT_HI (R85, R95). -/
def WindowOpen (s : State) : Prop :=
  (s.st = .latLo ∧ 0 < s.dw) ∨ s.st = .setData ∨ s.st = .clkHi ∨ s.st = .clkLo ∨ (s.st = .latHi ∧ s.dw = 0)

/-- What the bit counter holds in each FSM state (R14, R94, R95). -/
def CountOf (s : State) : Prop :=
  match s.st with
  | .clearNext => s.cnt = 0#5
  | .idle => s.cnt = 0#5
  | .latLo => s.cnt.toNat = s.ch.width
  | .setData => 1 ≤ s.cnt.toNat ∧ s.cnt.toNat ≤ s.ch.width
  | .clkHi => 1 ≤ s.cnt.toNat ∧ s.cnt.toNat ≤ s.ch.width
  | .clkLo => 1 ≤ s.cnt.toNat ∧ s.cnt.toNat ≤ s.ch.width
  | .latHi => s.cnt = 0#5

/-- The invariant of the block and its chains. -/
structure EngineInv (s : State) : Prop where
  /-- `S[c]` and `Q[c]` have the same length, `CHAIN_LEN[c]` (R18). -/
  lengths   : ∀ c, (s.chains.get c).outs.length = (s.chains.get c).stages.length
  /-- The startup clear is over exactly when `boot = 0`, and then `clr = 4` (R22, R95). -/
  booted    : s.boot = false → s.clr = 4#3
  clrBound  : s.clr.toNat ≤ 4
  /-- The block is ready only after the startup clear (R192). -/
  idle      : s.st = .idle → s.boot = false
  clearing  : s.st = .clearNext → s.boot = true
  /-- During the startup clear the transmission in progress is the zero one of channel `clr - 1` (R191, R95). -/
  clears    : s.boot = true → Transmitting s → s.clr.toNat = s.ch.index + 1 ∧ s.sr = 0#16
  count     : CountOf s
  /-- `dw` counts in the wire-event states only (R96). -/
  noDwell   : ¬ Transmitting s → s.dw = 0
  /-- `CLK[c] = 1` only in the pulse of the channel in progress (R83, R97). -/
  clkHigh   : ∀ c, (s.sclk c = true ↔ c = s.ch ∧ PulseHigh s)
  /-- The latch is low in an open window (R85). -/
  latOpen   : WindowOpen s → s.slatch s.ch = false
  /-- Once the latch has risen, the outputs are the stages (R84, R180). -/
  latClosed : s.st = .latHi → 0 < s.dw →
    s.slatch s.ch = true ∧ (s.chains.get s.ch).outs = (s.chains.get s.ch).stages
  /-- Between transmissions the latch is high once the channel was cleared, low before (R22, R84, R97). -/
  latIdle   : ∀ c, ¬ Active s c → (s.slatch c = true ↔ Cleared s c)
  /-- Between transmissions the outputs of a cleared channel are its committed stages (R180, R181). -/
  committed : ∀ c, ¬ Active s c → Cleared s c → (s.chains.get c).outs = (s.chains.get c).stages

/-- The invariant of the front-end and its request. -/
structure RequestInv (s : State) : Prop where
  /-- The front-end handles lines only after the startup clear (R141). -/
  afterBoot  : s.fe ≠ .startup → s.fe ≠ .awaitClear → s.boot = false
  /-- It holds its request on the ports (R135), for its group, with no bit above the group's width (R62, R134). -/
  requesting : ∀ g, s.fe = .requesting g →
    s.reqValid = true ∧ s.reqCh = g.code ∧ s.reqValue.toNat < 2 ^ g.width
  /-- A request the block has sampled is still the one on the ports, unless it was withdrawn (R199). -/
  stable     : requestChanged s = false

/-- The invariant of the whole machine. -/
structure Inv (s : State) : Prop where
  engine  : EngineInv s
  request : RequestInv s

/-! ### Words for claims -/

/-- `n` steps, stopping at the first fault or refusal. -/
def stepsWith (p : Params) : Nat → State → Host.Outcome State Fault Refusal
  | 0, s => .next s
  | n + 1, s =>
    match stepWith p s with
    | .next t => stepsWith p n t
    | .fault r => .fault r
    | .refused r => .refused r

/-- The chain of channel `c` has the default length `CHAIN_LEN[c] = WIDTH[c]` (R18, D15). -/
def DefaultLength (s : State) (c : Channel) : Prop := (s.chains.get c).stages.length = c.width

/-- The registers and lines of the block are in the "while `rst = 1`" column of R22. -/
structure InReset (s : State) : Prop where
  lines : ∀ c, s.lines.get c = { data := false, clk := false, lat := false }
  st    : s.st = .clearNext
  ch    : s.ch = .A
  sr    : s.sr = 0#16
  cnt   : s.cnt = 0#5
  dw    : s.dw = 0
  boot  : s.boot = true
  clr   : s.clr = 0#3

/-- The block and the chains as the startup clear leaves them (R22, second column; R193); the rest as in `s`. -/
def clearedState (s : State) : State :=
  { s with
    lines  := PerChannel.tabulate fun _ => { data := false, clk := false, lat := true }
    st     := .idle
    ch     := .D
    sr     := 0#16
    cnt    := 0#5
    dw     := 0
    boot   := false
    clr    := 4#3
    chains := PerChannel.tabulate fun c =>
      { stages := List.replicate c.width false, outs := List.replicate c.width false } }

/-- The state after value `v` was transmitted on channel `c` from `s`, with a chain of the channel's width (R89): the
channel's lines and chain and the engine's registers, everything else as in `s`. -/
def delivered (c : Channel) (v : Value) (s : State) : State :=
  { s with
    lines  := s.lines.set c { data := v.getLsbD 0, clk := false, lat := true }
    chains := s.chains.set c { stages := bitsLsbFirst c.width v, outs := bitsLsbFirst c.width v }
    ch     := c
    sr     := v
    cnt    := 0#5
    dw     := 0
    st     := afterLatHi s.boot }

/-- How many of the events, driven from `s`, are rising edges of `CLK[c]`. -/
def clockRises (c : Channel) : List WireEvent → State → Nat
  | [], _ => 0
  | e :: es, s =>
    (if e.ch = c ∧ e.line = .clk ∧ e.level = true ∧ s.sclk c = false then 1 else 0) + clockRises c es (drive e s)

/-- How many of the events, driven from `s`, are rising edges of `LAT[c]`. -/
def latchRises (c : Channel) : List WireEvent → State → Nat
  | [], _ => 0
  | e :: es, s =>
    (if e.ch = c ∧ e.line = .lat ∧ e.level = true ∧ s.slatch c = false then 1 else 0) + latchRises c es (drive e s)

/-- The digits of the three literal forms, in the order of their values (R128, R131, R132). -/
def decTable : Text := ['0', '1', '2', '3', '4', '5', '6', '7', '8', '9']
def hexLower : Text := decTable ++ ['a', 'b', 'c', 'd', 'e', 'f']
def hexUpper : Text := decTable ++ ['A', 'B', 'C', 'D', 'E', 'F']
def binTable : Text := ['0', '1']

/-- Text `t` spells the digits `ds`: each character stands, in one of the tables, at the place of its digit. -/
def Spells (tables : List Text) : Text → List Nat → Prop
  | [], [] => True
  | x :: xs, d :: ds => (∃ t ∈ tables, t[d]? = some x) ∧ Spells tables xs ds
  | [], _ :: _ => False
  | _ :: _, [] => False

/-- Every character of the text is whitespace of the trim set (R126). -/
def Blank (t : Text) : Prop := ∀ x ∈ t, isSpace x = true

/-- The text does not end in whitespace. -/
def BareEnd (t : Text) : Prop := ∀ x, t.getLast? = some x → isSpace x = false

/-- The text does not begin with whitespace. -/
def BareStart (t : Text) : Prop := ∀ x, t.head? = some x → isSpace x = false

/-- A run of `n` steps goes on: no fault, no refusal. -/
def Safe (p : Params) : Nat → State → Prop
  | 0, _ => True
  | n + 1, s => ∃ t, stepWith p s = .next t ∧ Safe p n t

end Sys2Proof.Safety
end

