-- ==== Sys2Proof/Certificates/Slice0/Obligations.lean ====
section
/-! DEFINITION. The statements for the provers. Each docstring names the rules of spec/ it formalises. -/

section SpecStatements

open Sys2Proof Sys2Proof.Machine Sys2Proof.Safety

/-! ### Encoding (30_encoding.md) -/

/-- R60 to R62 and log 13 (the byte layout is the model's choice): decoding an encoded instruction gives it back, as a
word, as bytes and through the opcode table's numbering, for every instruction and every operand. -/
def Obligations.DecodeAfterEncode : Prop :=
  ∀ i : Instr, decodeWord (encode i) = i ∧ decodeBytes (encodeBytes i) = .ok i ∧
    ∀ nbits, decodeTableWord nbits (encode i).toNat = some i

/-- R11: the channel table: codes, keywords, widths, field counts. Spelled out here, not read from the model. -/
def Obligations.ChannelTable : Prop :=
  (Channel.A.code = 0b00#2 ∧ Channel.A.keyword = "muxBE12".toList ∧ Channel.A.width = 16 ∧ Channel.A.fields = 4) ∧
  (Channel.B.code = 0b01#2 ∧ Channel.B.keyword = "muxBE34".toList ∧ Channel.B.width = 16 ∧ Channel.B.fields = 4) ∧
  (Channel.C.code = 0b10#2 ∧ Channel.C.keyword = "ENABLE".toList ∧ Channel.C.width = 16 ∧ Channel.C.fields = 0) ∧
  (Channel.D.code = 0b11#2 ∧ Channel.D.keyword = "muxTE".toList ∧ Channel.D.width = 8 ∧ Channel.D.fields = 2)

/-- 30_encoding.md R63 (which the spec derives from R61 and R62): every one of the 2^18 words is legal. It decodes to a
well-formed instruction which encodes to that word alone, and whose execution neither faults nor is refused. -/
def Obligations.EveryRequestWordLegal : Prop :=
  ∀ w : ReqWord, (decodeWord w).wf = true ∧ encode (decodeWord w) = w ∧
    ∀ s : State, ∃ t, exec (decodeWord w) s = .next t

/-- R61: `CH` selects the instruction, the channel and with it the width. -/
def Obligations.ChannelCodeSelects : Prop :=
  ∀ w : ReqWord,
    (chField w = 0b00#2 → decodeWord w = .txA (valueField w) ∧ (decodeWord w).channel = .A ∧ Channel.A.width = 16) ∧
    (chField w = 0b01#2 → decodeWord w = .txB (valueField w) ∧ (decodeWord w).channel = .B ∧ Channel.B.width = 16) ∧
    (chField w = 0b10#2 → decodeWord w = .txC (valueField w) ∧ (decodeWord w).channel = .C ∧ Channel.C.width = 16) ∧
    (chField w = 0b11#2 → decodeWord w = .txD (valueField w) ∧ (decodeWord w).channel = .D ∧ Channel.D.width = 8)

/-- The opcode map of 30_encoding.md (`match = CH << 16`, `mask = 0x30000`): every word matches exactly one row, the row
of the instruction the decoder reads. -/
def Obligations.OpcodeTableAgrees : Prop :=
  ∀ w : ReqWord, ∃ r, matchingRows w = [r] ∧ r.mnemonic = (decodeWord w).mnemonic

/-- Request words of 95_test_vectors.md sections 1.2, 2.3 and 3, written out bit by bit. -/
def Obligations.WordsOfTheSpec : Prop :=
  decodeWord 0b001111111111111111#18 = .txA 0xFFFF#16 ∧ decodeWord 0b010000000011111111#18 = .txB 0x00FF#16 ∧
  decodeWord 0b101010101010101010#18 = .txC 0xAAAA#16 ∧ decodeWord 0b110000000010101011#18 = .txD 0x00AB#16 ∧
  decodeWord 0b110000000000000101#18 = .txD 0x0005#16 ∧ decodeWord 0b010000111100001111#18 = .txB 0x0F0F#16

/-- Log 13 (the model's choice): a byte sequence that is no request word is refused by name. -/
def Obligations.MalformedBytesRejected : Prop :=
  (∀ bs : List Byte, bs.length < 3 → decodeBytes bs = .error .truncated) ∧
  (∀ bs : List Byte, 3 < bs.length → decodeBytes bs = .error .overlong) ∧
  (∀ b0 b1 b2 : Byte, 4 ≤ b2.toNat → decodeBytes [b0, b1, b2] = .error .strayBits) ∧
  (∀ b0 b1 b2 : Byte, b2.toNat < 4 →
    decodeBytes [b0, b1, b2] = .ok (decodeWord (BitVec.ofNat 18 (b0.toNat + 256 * b1.toNat + 65536 * b2.toNat))))

/-! ### The transmission (40_transmit.md, 20_memory.md) -/

/-- R80: `Transmit(c, v)` is exactly this sequence of `3W + 2` wire events on channel c's triple, and what an
instruction does to lines and chains is this sequence and nothing else. -/
def Obligations.TransmissionIsEventSequence : Prop :=
  ∀ (c : Channel) (v : Value),
    (transmitEvents c v).length = 3 * c.width + 2 ∧
    (transmitEvents c v)[0]? = some { ch := c, line := .lat, level := false } ∧
    (∀ j, j < c.width →
      (transmitEvents c v)[3 * j + 1]? = some { ch := c, line := .data, level := v.getLsbD (c.width - 1 - j) } ∧
      (transmitEvents c v)[3 * j + 2]? = some { ch := c, line := .clk, level := true } ∧
      (transmitEvents c v)[3 * j + 3]? = some { ch := c, line := .clk, level := false }) ∧
    (transmitEvents c v)[3 * c.width + 1]? = some { ch := c, line := .lat, level := true } ∧
    ∀ s : State, ∃ t, exec (Instr.transmit c v) s = .next t ∧
      t.lines = (driveAll (transmitEvents c v) s).lines ∧ t.chains = (driveAll (transmitEvents c v) s).chains

/-- 40_transmit.md R89 (which the spec derives from R80 to R84 and R44) and R90 to R93, for TX_A, TX_B, TX_C and TX_D: from every state whose clock line of the channel is low (an invariant,
`StepKeepsInvariant`) and whose chain has the channel's width, the instruction completes, the chain holds the value and
the lines are `DATA = v[0]`, `CLK = 0`, `LAT = 1`, whatever the chain held before. Everything else is as it was, but for
the engine's own registers. -/
def Obligations.EveryInstructionCompletes : Prop :=
  ∀ (v : Value) (s : State),
    (s.sclk .A = false → DefaultLength s .A → exec (.txA v) s = .next (delivered .A v s)) ∧
    (s.sclk .B = false → DefaultLength s .B → exec (.txB v) s = .next (delivered .B v s)) ∧
    (s.sclk .C = false → DefaultLength s .C → exec (.txC v) s = .next (delivered .C v s)) ∧
    (s.sclk .D = false → DefaultLength s .D → exec (.txD v) s = .next (delivered .D v s))

/-- 20_memory.md R44 (which the spec derives from R43 and R179): placement in a chain of any length. Stage k below the width holds `v[k]`; a stage k from the width up holds the
old contents moved W places along; the commit shows all of it. -/
def Obligations.PlacementInAnyChain : Prop :=
  ∀ (i : Instr) (s : State), s.sclk i.channel = false → ∃ t, exec i s = .next t ∧
    (t.chains.get i.channel).stages.length = (s.chains.get i.channel).stages.length ∧
    (∀ k, k < (s.chains.get i.channel).stages.length →
      (t.chains.get i.channel).stages[k]? =
        if k < i.channel.width then some (i.value.getLsbD k)
        else (s.chains.get i.channel).stages[k - i.channel.width]?) ∧
    (t.chains.get i.channel).outs = (t.chains.get i.channel).stages

/-- R46: `Q[c]` changes only at a rising edge of `LAT[c]`, all bits at once; from the first event of a transmission up to
its commit it keeps its value. -/
def Obligations.CommitIsAtomic : Prop :=
  (∀ (e : WireEvent) (s : State) (c : Channel),
    ((drive e s).chains.get c).outs ≠ (s.chains.get c).outs →
      e = { ch := c, line := .lat, level := true } ∧ s.slatch c = false ∧
      ((drive e s).chains.get c).outs = (s.chains.get c).stages) ∧
  (∀ (c : Channel) (v : Value) (s : State) (n : Nat), n ≤ 3 * c.width + 1 →
    ((driveAll ((transmitEvents c v).take n) s).chains.get c).outs = (s.chains.get c).outs) ∧
  (∀ (c : Channel) (v : Value) (s : State),
    ((driveAll (transmitEvents c v) s).chains.get c).outs =
      ((driveAll ((transmitEvents c v).take (3 * c.width + 1)) s).chains.get c).stages)

/-- R83: the data level is set before the rising edge that takes it and stays past the falling edge; the clock is low
around every data event; exactly W rising edges of the clock. From a low clock line (an invariant). -/
def Obligations.DataStableAroundClock : Prop :=
  ∀ (c : Channel) (v : Value) (s : State), s.sclk c = false →
    clockRises c (transmitEvents c v) s = c.width ∧
    (∀ j, j < c.width → ∀ n, n = 3 * j + 2 ∨ n = 3 * j + 3 ∨ n = 3 * j + 4 →
      (driveAll ((transmitEvents c v).take n) s).sdata c = v.getLsbD (c.width - 1 - j)) ∧
    (∀ n, n ≤ 3 * c.width + 2 →
      ((driveAll ((transmitEvents c v).take n) s).sclk c = true ↔ n % 3 = 0 ∧ 0 < n)) ∧
    (driveAll ((transmitEvents c v).take 1) s).sdata c = s.sdata c ∧
    (driveAll (transmitEvents c v) s).sdata c = v.getLsbD 0

/-- R85 and the first sentence of R84: the latch is low from the first event on and rises once, in the last event. -/
def Obligations.LatchLowThroughout : Prop :=
  ∀ (c : Channel) (v : Value) (s : State),
    (∀ n, 1 ≤ n → n ≤ 3 * c.width + 1 → (driveAll ((transmitEvents c v).take n) s).slatch c = false) ∧
    (driveAll (transmitEvents c v) s).slatch c = true ∧ latchRises c (transmitEvents c v) s = 1

/-- R51: a transmission drives only its own channel's lines, at every point of it; the other lines keep their levels and
the other chains are unchanged. -/
def Obligations.OtherChannelsUntouched : Prop :=
  ∀ (c e : Channel) (v : Value) (s : State) (n : Nat), e ≠ c →
    (∀ x ∈ transmitEvents c v, x.ch = c) ∧
    (driveAll ((transmitEvents c v).take n) s).lines.get e = s.lines.get e ∧
    (driveAll ((transmitEvents c v).take n) s).chains.get e = s.chains.get e

/-- The frame of all four instructions (20_memory.md section 4, 40_transmit.md sections 1 and 2): other channels, the
startup clear's registers, the ports, the monitor, the front-end and the serial line are unchanged; of the engine's
registers `ch`, `sr`, `cnt`, `dw`, `st` take the values the FSM leaves. -/
def Obligations.TransmissionFrame : Prop :=
  ∀ (i : Instr) (s t : State), exec i s = .next t →
    (∀ e, e ≠ i.channel → t.lines.get e = s.lines.get e ∧ t.chains.get e = s.chains.get e) ∧
    t.boot = s.boot ∧ t.clr = s.clr ∧ t.rst = s.rst ∧ t.reqValid = s.reqValid ∧ t.reqCh = s.reqCh ∧
    t.reqValue = s.reqValue ∧ t.held = s.held ∧ t.fe = s.fe ∧ t.rx = s.rx ∧ t.tx = s.tx ∧
    t.ch = i.channel ∧ t.sr = i.value ∧ t.cnt = 0#5 ∧ t.dw = 0 ∧ t.st = afterLatHi s.boot

/-- 20_memory.md R48 (which the spec derives from R44 and R46): the previous value of the chain has no influence, and the same value twice is as once. -/
def Obligations.TransmissionOverwrites : Prop :=
  ∀ (i : Instr) (s s' : State), s.sclk i.channel = false → s'.sclk i.channel = false →
    DefaultLength s i.channel → DefaultLength s' i.channel →
    ∃ t t', exec i s = .next t ∧ exec i s' = .next t' ∧ t.chains.get i.channel = t'.chains.get i.channel ∧
      ∃ u, exec i t = .next u ∧ u.chains = t.chains ∧ u.lines = t.lines

/-- R62 and R93: bits 15:8 of a TX_D value reach no line and no state other than `sr`. -/
def Obligations.HighValueBitsIgnoredOnD : Prop :=
  ∀ (v v' : Value) (s : State), (∀ k, k < 8 → v.getLsbD k = v'.getLsbD k) →
    ∃ t, exec (.txD v) s = .next t ∧ t.sr = v ∧ exec (.txD v') s = .next { t with sr := v' }

/-! ### The chains (60_exceptions.md section 4) -/

/-- 60_exceptions.md R179 (marked by the spec as general knowledge, log 18) and R180: the shift on a rising clock edge, the commit on a rising latch edge, nothing on a falling edge. -/
def Obligations.ChainShiftsAndCommits : Prop :=
  ∀ (c : Channel) (s : State),
    (s.sclk c = false →
      ((drive { ch := c, line := .clk, level := true } s).chains.get c).outs = (s.chains.get c).outs ∧
      ((drive { ch := c, line := .clk, level := true } s).chains.get c).stages.length =
        (s.chains.get c).stages.length ∧
      (0 < (s.chains.get c).stages.length →
        ((drive { ch := c, line := .clk, level := true } s).chains.get c).stages[0]? = some (s.sdata c)) ∧
      ∀ k, k + 1 < (s.chains.get c).stages.length →
        ((drive { ch := c, line := .clk, level := true } s).chains.get c).stages[k + 1]? =
          (s.chains.get c).stages[k]?) ∧
    (drive { ch := c, line := .clk, level := false } s).chains = s.chains ∧
    (s.slatch c = false →
      (drive { ch := c, line := .lat, level := true } s).chains.get c =
        { stages := (s.chains.get c).stages, outs := (s.chains.get c).stages }) ∧
    (drive { ch := c, line := .lat, level := false } s).chains = s.chains

/-- 60_exceptions.md R181 (which the spec derives from R179, R180 and R190): nothing else changes a chain: only a rising edge of its own clock or latch does; the block's reset does not. -/
def Obligations.NothingElseChangesChain : Prop :=
  (∀ (e : WireEvent) (s : State) (c : Channel), (drive e s).chains.get c ≠ s.chains.get c →
    (e = { ch := c, line := .clk, level := true } ∧ s.sclk c = false) ∨
    (e = { ch := c, line := .lat, level := true } ∧ s.slatch c = false)) ∧
  ∀ s : State, (resetEdge s).chains = s.chains

/-- Whole machine (R46, R51, R53, R84, R173, R181): in one step the outputs `Q[c]` change only where a request for
channel c is accepted or the FSM is in `LAT_HI` for c; the lines of c change, out of reset, only where a request for c is
accepted or the FSM's transmission is on c. No front-end move touches a line or a chain. -/
def Obligations.ChannelMovesOnlyInItsTransmission : Prop :=
  ∀ (p : Params) (s t : State) (c : Channel), stepWith p s = .next t →
    ((t.chains.get c).outs ≠ (s.chains.get c).outs →
      s.rst = false ∧ ((accepts s = true ∧ c = Channel.ofCode s.reqCh) ∨ (s.st = .latHi ∧ c = s.ch))) ∧
    (t.lines.get c ≠ s.lines.get c →
      s.rst = true ∨ (accepts s = true ∧ c = Channel.ofCode s.reqCh) ∨ (Transmitting s ∧ c = s.ch))

/-! ### The reference FSM (40_transmit.md section 3) -/

/-- R94: a request is accepted in a cycle with `rst = 0`, `st = IDLE`, `req_valid = 1`, with these register writes and no
line change; in any other cycle the block and the chains do not depend on what is on the request ports. -/
def Obligations.RequestAcceptance : Prop :=
  (∀ (p : Params) (s : State), s.rst = false → s.st = .idle → s.reqValid = true → requestChanged s = false →
    clockEdge p s = .next
      { s with
        ch := Channel.ofCode s.reqCh, sr := s.reqValue, cnt := BitVec.ofNat 5 (Channel.ofCode s.reqCh).width,
        dw := 0, st := .latLo, held := none }) ∧
  (∀ (p : Params) (s t : State) (valid : Bool) (ch : BitVec 2) (value : Value) (t' : State),
    ¬ (s.st = .idle ∧ s.rst = false) →
    clockEdge p s = .next t →
    clockEdge p { s with reqValid := valid, reqCh := ch, reqValue := value, held := none } = .next t' →
    t'.lines = t.lines ∧ t'.chains = t.chains ∧ t'.st = t.st ∧ t'.ch = t.ch ∧ t'.sr = t.sr ∧ t'.cnt = t.cnt ∧
      t'.dw = t.dw ∧ t'.boot = t.boot ∧ t'.clr = t.clr)

/-- R95, with `DWELL` cycles per state as R96 says: the line write happens in the first cycle of a wire-event state
(`dw = 0`), the transition at the end of its last (`dw = DWELL - 1`); here the table row by row for `DWELL = 1`, where
both fall in one cycle, and the two one-cycle rows for every `DWELL`. -/
def Obligations.FsmTransitionTable : Prop :=
  ∀ s : State,
    (∀ d, s.st = .clearNext → s.clr.toNat < 4 →
      fsmCycle d s = { s with
        ch := Channel.ofCode (s.clr.setWidth 2), sr := 0#16, clr := s.clr + 1#3, dw := 0, st := .latLo,
        cnt := BitVec.ofNat 5 (Channel.ofCode (s.clr.setWidth 2)).width }) ∧
    (∀ d, s.st = .clearNext → 4 ≤ s.clr.toNat → fsmCycle d s = { s with boot := false, st := .idle }) ∧
    (∀ d, s.st = .idle → s.reqValid = false → fsmCycle d s = s) ∧
    (s.dw = 0 → s.st = .latLo →
      fsmCycle 1 s = { drive { ch := s.ch, line := .lat, level := false } s with st := .setData }) ∧
    (s.dw = 0 → s.st = .setData →
      fsmCycle 1 s = { drive { ch := s.ch, line := .data, level := s.sr.getLsbD (s.cnt - 1#5).toNat } s with
        st := .clkHi }) ∧
    (s.dw = 0 → s.st = .clkHi →
      fsmCycle 1 s = { drive { ch := s.ch, line := .clk, level := true } s with st := .clkLo }) ∧
    (s.dw = 0 → s.st = .clkLo →
      fsmCycle 1 s = { drive { ch := s.ch, line := .clk, level := false } s with
        cnt := s.cnt - 1#5, st := if s.cnt - 1#5 = 0#5 then .latHi else .setData }) ∧
    (s.dw = 0 → s.st = .latHi →
      fsmCycle 1 s = { drive { ch := s.ch, line := .lat, level := true } s with
        st := if s.boot then .clearNext else .idle })

/-- R96: each wire-event state is held for exactly `DWELL` cycles, counted by `dw`, its line write in the first of them;
`IDLE` (when a request is accepted) and `CLEAR_NEXT` take one cycle. With quiet ports (no reset, no change of the
request). -/
def Obligations.DwellIsExact : Prop :=
  ∀ (p : Params) (s : State), p.wf = true → s.rst = false → s.held = sampled s →
    (Transmitting s → s.dw = 0 →
      (∀ k, 0 < k → k < p.dwell → ∃ u, clockEdges p k s = .next u ∧ u.st = s.st ∧ u.dw = k ∧
        u.lines = (writeLine s).lines ∧ u.chains = (writeLine s).chains) ∧
      (∃ u, clockEdges p p.dwell s = .next u ∧ u.st ≠ s.st ∧ u.dw = 0 ∧ u.lines = (writeLine s).lines ∧
        u.chains = (writeLine s).chains)) ∧
    (s.st = .clearNext → ∃ u, clockEdge p s = .next u ∧ u.st ≠ .clearNext) ∧
    (s.st = .idle → s.reqValid = true → ∃ u, clockEdge p s = .next u ∧ u.st = .latLo)

/-- 40_transmit.md R98 (which the spec derives from R94 to R96), and the refinement of `step` by the reference FSM: from the accepting cycle on, `1 + (3W + 2) * DWELL` rising
edges of `clk` (the requester lowering `req_valid` after the first, R199) drive exactly the wire events of R80 and reach
exactly the state of one `step` (that a step runs a whole accepted request is the model's choice, log 1); the block is not
ready in any cycle between. -/
def Obligations.ClockLevelRefinesStep : Prop :=
  ∀ (p : Params) (s : State), p.wf = true → accepts s = true → requestChanged s = false →
    ∃ u t, clockEdge p s = .next u ∧ u.lines = s.lines ∧ u.chains = s.chains ∧ u.reqReady = false ∧
      clockEdges p ((3 * (Channel.ofCode s.reqCh).width + 2) * p.dwell) (releaseRequest u) = .next t ∧
      stepWith p s = .next t ∧
      clockTrace p ((3 * (Channel.ofCode s.reqCh).width + 2) * p.dwell) (releaseRequest u) =
        transmitEvents (Channel.ofCode s.reqCh) s.reqValue ∧
      ∀ n, n < (3 * (Channel.ofCode s.reqCh).width + 2) * p.dwell →
        ∃ x, clockEdges p n (releaseRequest u) = .next x ∧ x.reqReady = false

/-- R198, R50 (P4 of 95_test_vectors.md): a further request presented right after the first was accepted, and held, is not
lost and is accepted in the first `IDLE` cycle, exactly `(3W + 2) * DWELL` cycles later and not before, when the first has
committed. -/
def Obligations.BackToBackRequests : Prop :=
  ∀ (p : Params) (s : State) (code : BitVec 2) (value : Value), p.wf = true → accepts s = true →
    requestChanged s = false → s.boot = false → s.sclk (Channel.ofCode s.reqCh) = false →
    DefaultLength s (Channel.ofCode s.reqCh) →
    ∃ u t x, clockEdge p s = .next u ∧
      clockEdges p ((3 * (Channel.ofCode s.reqCh).width + 2) * p.dwell) (u.present code value) = .next t ∧
      (t.chains.get (Channel.ofCode s.reqCh)).outs = bitsLsbFirst (Channel.ofCode s.reqCh).width s.reqValue ∧
      accepts t = true ∧ clockEdge p t = .next x ∧ x.ch = Channel.ofCode code ∧ x.sr = value ∧ x.st = .latLo ∧
      ∀ n, n < (3 * (Channel.ofCode s.reqCh).width + 2) * p.dwell →
        ∃ y, clockEdges p n (u.present code value) = .next y ∧ accepts y = false ∧
          (0 < n → y.ch = Channel.ofCode s.reqCh ∧ y.sr = s.reqValue)

/-- R201 with R83: in a machine whose `DWELL` meets the electrical minimums, the data level of a bit stands on the line,
the clock low, for `DWELL` cycles before the rising edge, for the `DWELL` cycles of the high clock, and for the `DWELL`
cycles of the low clock after it, each at least the minimum the rule asks for. With quiet ports. -/
def Obligations.ElectricalMinimumsMet : Prop :=
  ∀ (p : Params) (s : State), p.wf = true → p.meetsMinimums = true → s.rst = false → s.held = sampled s →
    EngineInv s → s.st = .setData → s.dw = 0 →
    (∀ k, 0 < k → k ≤ p.dwell → ∃ u, clockEdges p k s = .next u ∧
      u.sdata s.ch = s.sr.getLsbD (s.cnt - 1#5).toNat ∧ u.sclk s.ch = false) ∧
    (∀ k, p.dwell < k → k ≤ 2 * p.dwell → ∃ u, clockEdges p k s = .next u ∧
      u.sdata s.ch = s.sr.getLsbD (s.cnt - 1#5).toNat ∧ u.sclk s.ch = true) ∧
    (∀ k, 2 * p.dwell < k → k ≤ 3 * p.dwell → ∃ u, clockEdges p k s = .next u ∧
      u.sdata s.ch = s.sr.getLsbD (s.cnt - 1#5).toNat ∧ u.sclk s.ch = false) ∧
    p.tSu ≤ p.dwell * p.tClk ∧ p.tHd ≤ p.dwell * p.tClk ∧ p.tCkh ≤ p.dwell * p.tClk ∧ p.tCkl ≤ p.dwell * p.tClk ∧
    p.tLatw ≤ p.dwell * p.tClk ∧ p.tCl ≤ p.dwell * p.tClk

/-- R15: the status outputs. -/
def Obligations.ReadyAndBusy : Prop :=
  ∀ s : State, (s.reqReady = true ↔ s.st = .idle ∧ s.rst = false) ∧ (s.busy = true ↔ s.reqReady = false)

/-- 20_memory.md R50 (which the spec derives from R94 and R95) and R52: when the block is ready, every earlier transmission has committed: every latch is high, every clock low,
every chain's outputs are its stages, and the startup clear is over (R192). -/
def Obligations.ReadyMeansCommitted : Prop :=
  ∀ s : State, EngineInv s → s.reqReady = true →
    s.boot = false ∧ ∀ c, s.slatch c = true ∧ s.sclk c = false ∧ (s.chains.get c).outs = (s.chains.get c).stages

/-! ### Reset and startup (70_reset_and_hazards.md) -/

/-- R22, first column: the state after reset. The ports, the serial line, the monitor and the chains are not of this
statement: logs 3 to 7. That the dispatcher is Idle already, before the startup output, is the model's choice (log 23). -/
def Obligations.ResetState : Prop :=
  ∀ p : Params, InReset (State.resetWith p) ∧ (State.resetWith p).reqReady = false ∧
    (State.resetWith p).fe.dispatcher = .idle ∧ State.reset = State.resetWith Config.params

/-- R190: a rising edge of `clk` with `rst = 1`, from every state, a transmission in progress or not; a request presented
then is not accepted. -/
def Obligations.ResetEdgeState : Prop :=
  ∀ (p : Params) (s : State), s.rst = true → ∃ t, clockEdge p s = .next t ∧ stepWith p s = .next t ∧
    InReset t ∧ t.reqReady = false ∧ t.chains = s.chains

/-- R191: the startup clear transmits zero on A, B, C, D in this order, each at its width, then enters `IDLE` with
`boot = 0`. In FSM states: four visits of `CLEAR_NEXT` with a transmission each, and a fifth visit. -/
def Obligations.StartupClearEvents : Prop :=
  ∀ s : State, InReset s →
    engineTrace 181 s = transmitEvents .A 0#16 ++ transmitEvents .B 0#16 ++ transmitEvents .C 0#16 ++
      transmitEvents .D 0#16 ∧
    (engineRun 181 s).st = .idle ∧ (engineRun 181 s).boot = false

/-- R192, and R193 and R202 (which the spec derives from R191, R89, R95 and R96): from the reset column of R22, whatever the chains (of default length) hold, `5 + 176 * DWELL`
cycles reach `IDLE` with every chain zero and the second column of R22; the block is not ready in any cycle before. -/
def Obligations.StartupClearState : Prop :=
  ∀ (p : Params) (s : State), p.wf = true → InReset s → s.rst = false → requestChanged s = false →
    (∀ c, DefaultLength s c) →
    clockEdges p (5 + 176 * p.dwell) s = .next { clearedState s with held := sampled s } ∧
    ∀ n, n < 5 + 176 * p.dwell → ∃ u, clockEdges p n s = .next u ∧ u.reqReady = false

/-- 70_reset_and_hazards.md R196 (which the spec derives from R190 and R181): reset during a transmission abandons it: no latch rises, so nothing is committed and every chain keeps what it
held; the startup clear that follows, once `rst` is released, commits zero on every channel. -/
def Obligations.ResetAbandonsTransmission : Prop :=
  ∀ (p : Params) (s : State), p.wf = true → EngineInv s → Transmitting s → s.rst = true →
    (∀ c, DefaultLength s c) →
    ∃ t u, clockEdge p s = .next t ∧ (∀ c, t.slatch c = false) ∧ t.chains = s.chains ∧
      clockEdges p (5 + 176 * p.dwell) { t with rst := false } = .next u ∧
      (∀ c, (u.chains.get c).outs = List.replicate c.width false) ∧ u.reqReady = true

/-! ### Invariants and safety -/

/-- The invariant of the whole machine (bit counter in range, clock low but in a pulse, latch low exactly in an open
window, outputs equal to committed stages, `boot` and `clr` as the clear leaves them, the front-end's request on the
ports unchanged) is kept by every step. -/
def Obligations.StepKeepsInvariant : Prop :=
  ∀ (p : Params) (s t : State), Inv s → stepWith p s = .next t → Inv t

/-- The invariant holds right after reset, for every choice of the parameters. -/
def Obligations.ResetHasInvariant : Prop :=
  ∀ p : Params, Inv (State.resetWith p)

/-- The block's invariant, with `dw` below `DWELL` (R14, R96), is kept by every rising edge of `clk`, whatever is on the
ports. -/
def Obligations.ClockKeepsInvariant : Prop :=
  ∀ (p : Params) (s t : State), p.wf = true → EngineInv s → s.dw < p.dwell → clockEdge p s = .next t →
    EngineInv t ∧ t.dw < p.dwell

/-- 60_exceptions.md R170 (derived by the spec) and R142: from every state with the invariant, no run of `step` ever stops. -/
def Obligations.GoodStatesNeverStop : Prop :=
  ∀ (p : Params) (n : Nat) (s : State), Inv s → Safe p n s

/-- 60_exceptions.md R170 (which the spec derives from R63, R87 and R88): the block raises nothing: no instruction stops, no step and no clock edge is refused. -/
def Obligations.BlockRaisesNothing : Prop :=
  (∀ (i : Instr) (s : State), ∃ t, exec i s = .next t) ∧
  (∀ (p : Params) (s : State) (r : Refusal), stepWith p s ≠ .refused r ∧ clockEdge p s ≠ .refused r)

/-- R199 and I10 (and log 5: a lowered `req_valid` is no change): the one fault is the requester's, exactly when the word
sampled at the last edge without acceptance was replaced by another while `req_valid = 1`; and the monitor holds exactly
that word. -/
def Obligations.RequesterFaultExactly : Prop :=
  ∀ (p : Params) (s : State),
    (stepWith p s = .fault .requestChanged ↔
      s.rst = false ∧ s.reqValid = true ∧ ∃ w, s.held = some w ∧ w ≠ s.portWord) ∧
    (clockEdge p s = .fault .requestChanged ↔
      s.rst = false ∧ s.reqValid = true ∧ ∃ w, s.held = some w ∧ w ≠ s.portWord) ∧
    (∀ t, clockEdge p s = .next t →
      t.held = if s.rst = false ∧ s.reqValid = true ∧ s.st ≠ .idle then some s.portWord else none)

/-! ### The step -/

/-- A step runs the decoded instruction. That one step runs a whole accepted request is the model's choice (log 1), as is
that the word stays on the ports (log 24). With the block ready and a request on the ports (R94), `step` is `exec` of the
word on the ports, after which the requester lowers `req_valid` and a front-end that asserted it waits (R199, R135); that
this is in the same step is the model's choice too (log 17). -/
def Obligations.StepRunsDecodedInstruction : Prop :=
  ∀ (p : Params) (s t : State), accepts s = true → requestChanged s = false →
    exec (decodeWord s.portWord) s = .next t →
    stepWith p s = .next { t with
      reqValid := false, held := none,
      fe := match s.fe with
        | .requesting g => .awaiting g
        | f => f }

/-- Log 14: a word placed with `withFetchWord` is decoded and run by the very next step, from every state. -/
def Obligations.PlacedWordRuns : Prop :=
  ∀ (s : State) (nbits w : Nat), w < 2 ^ 18 →
    ∃ i t, decodeTableWord nbits w = some i ∧ encode i = BitVec.ofNat 18 w ∧
      exec i (s.withFetchWord nbits w) = .next t ∧ step (s.withFetchWord nbits w) = .next (releaseRequest t)

/-! ### The front-end (41_frontend.md, 60_exceptions.md) -/

/-- R126: the trim set, and that exactly the whitespace at the two ends goes. -/
def Obligations.TrimRemovesEdgeWhitespace : Prop :=
  (∀ x : Char, isSpace x = true ↔
    x = ' ' ∨ x = '\t' ∨ x = '\n' ∨ x = Char.ofNat 0x0B ∨ x = Char.ofNat 0x0C ∨ x = '\r') ∧
  (∀ pre t post : Text, Blank pre → Blank post → BareStart t → BareEnd t → trim (pre ++ t ++ post) = t)

/-- R128 and R129: hexadecimal literals, of either digit case and any length, under both settings of `HEX_OVERFLOW`. -/
def Obligations.HexLiterals : Prop :=
  ∀ (hex : HexOverflow) (w : Nat) (pre r post : Text), Blank pre → Blank post →
    (∀ ds, r ≠ [] → Spells [hexLower, hexUpper] r ds →
      parse hex w (pre ++ (['0', 'x'] ++ r) ++ post) =
        if Nat.ofDigits 16 ds.reverse ≤ 2 ^ w - 1 then .ok (Nat.ofDigits 16 ds.reverse)
        else match hex with
          | .truncate => .ok (Nat.ofDigits 16 ds.reverse % 2 ^ w)
          | .reject => .error .range) ∧
    (BareEnd r → (r = [] ∨ ∃ x ∈ r, x ∉ hexLower ∧ x ∉ hexUpper) →
      parse hex w (pre ++ (['0', 'x'] ++ r) ++ post) = .error .format)

/-- R130 and R131: binary literals; the length is checked before any character. -/
def Obligations.BinaryLiterals : Prop :=
  ∀ (hex : HexOverflow) (w : Nat) (pre r post : Text), Blank pre → Blank post → BareEnd r →
    (w < r.length → parse hex w (pre ++ (['0', 'b'] ++ r) ++ post) = .error (.binlen w)) ∧
    (r.length ≤ w → ∀ ds, r ≠ [] → Spells [binTable] r ds →
      parse hex w (pre ++ (['0', 'b'] ++ r) ++ post) = .ok (Nat.ofDigits 2 ds.reverse)) ∧
    (r.length ≤ w → (r = [] ∨ ∃ x ∈ r, x ∉ binTable) →
      parse hex w (pre ++ (['0', 'b'] ++ r) ++ post) = .error .format)

/-- R132 and R133 (and R66: another case of a prefix is no prefix): the decimal form. -/
def Obligations.DecimalLiterals : Prop :=
  ∀ (hex : HexOverflow) (w : Nat) (pre t post : Text), Blank pre → Blank post →
    (∀ ds, t ≠ [] → Spells [decTable] t ds →
      parse hex w (pre ++ t ++ post) =
        if Nat.ofDigits 10 ds.reverse ≤ 2 ^ w - 1 then .ok (Nat.ofDigits 10 ds.reverse) else .error .range) ∧
    (BareStart t → BareEnd t → (∀ r, t ≠ ['0', 'x'] ++ r) → (∀ r, t ≠ ['0', 'b'] ++ r) →
      (t = [] ∨ ∃ x ∈ t, x ∉ decTable) → parse hex w (pre ++ t ++ post) = .error .format)

/-- 41_frontend.md R134 (which the spec derives from R129, R131 and R133): every successful outcome fits the width. -/
def Obligations.ParsedValueFits : Prop :=
  ∀ (hex : HexOverflow) (w : Nat) (token : Text) (n : Nat), parse hex w token = .ok n → n ≤ 2 ^ w - 1

/-- R123: the line is a command of keyword k exactly when it starts with k and one space; the token is the rest (R125);
otherwise it is the failure UNKNOWN (R124), before any parse. -/
def Obligations.KeywordMatch : Prop :=
  ∀ (hex : HexOverflow) (line : Text),
    (∀ (g : Channel) (token : Text),
      matchKeyword line = some (g, token) ↔ line = g.keyword ++ ' ' :: token) ∧
    (∀ (g : Channel) (token : Text), line = g.keyword ++ ' ' :: token →
      dispatch hex line = match parse hex g.width token with
        | .ok n => .ok (g, n)
        | .error .format => .error (.format g)
        | .error .range => .error (.range g)
        | .error (.binlen w) => .error (.binlen g w)) ∧
    ((∀ (g : Channel) (token : Text), line ≠ g.keyword ++ ' ' :: token) → dispatch hex line = .error .unknown)

/-- R173: a failed command: the diagnostic, then the usage help, then Idle; no request, no line and no chain changes. That
this is one step is the model's division (log 16). -/
def Obligations.FailedCommand : Prop :=
  ∀ (p : Params) (s : State) (line : Text) (f : Failure), s.rst = false → s.st = .idle → s.reqValid = false →
    s.fe = .dispatching line → dispatch p.hexOverflow line = .error f →
    stepWith p s = .next { s with fe := .idle, tx := s.tx ++ [.diagnostic f, .usageHelp], held := none }

/-- R135: a successful parse issues exactly one request `{CH = code(g), VALUE = zext_16(n)}`, after the report (R136). That
this is one step is the model's division (log 16). -/
def Obligations.SuccessfulCommand : Prop :=
  ∀ (p : Params) (s : State) (line : Text) (g : Channel) (n : Nat), s.rst = false → s.st = .idle →
    s.reqValid = false → s.fe = .dispatching line → dispatch p.hexOverflow line = .ok (g, n) →
    stepWith p s = .next { s with
      reqValid := true, reqCh := g.code, reqValue := BitVec.ofNat 16 n, fe := .requesting g,
      tx := s.tx ++ [.report (reportOf g n)], held := none }

/-- R120: a request comes onto the ports only from a successfully dispatched line, or is being held by the front-end
already. -/
def Obligations.OnlyCommandsRequest : Prop :=
  ∀ (p : Params) (s t : State), stepWith p s = .next t → t.reqValid = true →
    s.reqValid = true ∨ (∃ g, s.fe = .requesting g) ∨
    ∃ line g n, s.fe = .dispatching line ∧ dispatch p.hexOverflow line = .ok (g, n) ∧ t.fe = .requesting g ∧
      t.reqCh = g.code ∧ t.reqValue = BitVec.ofNat 16 n ∧ n < 2 ^ g.width

/-- R136 (1) and (3): the digits a report holds denote the value: in decimal without leading zeros, W binary digits, W/4
hexadecimal digits. -/
def Obligations.ReportDigits : Prop :=
  ∀ (g : Channel) (n : Nat), n < 2 ^ g.width →
    Nat.ofDigits 10 (reportOf g n).decimal.reverse = n ∧ (∀ d ∈ (reportOf g n).decimal, d < 10) ∧
    (n ≠ 0 → (reportOf g n).decimal.head? ≠ some 0) ∧ (n = 0 → (reportOf g n).decimal = [0]) ∧
    Nat.ofDigits 2 (reportOf g n).binary.reverse = n ∧ (∀ d ∈ (reportOf g n).binary, d < 2) ∧
    (reportOf g n).binary.length = g.width ∧
    Nat.ofDigits 16 (reportOf g n).hex.reverse = n ∧ (∀ d ∈ (reportOf g n).hex, d < 16) ∧
    (reportOf g n).hex.length = g.width / 4

/-- R137 and R138: field i is `value[4i+3:4i]`; a report has M1 to M4 for A and B, M1 and M2 for D, none for C. -/
def Obligations.FieldsAreNibbles : Prop :=
  (∀ (v : Value) (count i : Nat), i < count → ∃ f, (decompose v count)[i]? = some f ∧
    ∀ k, k < 4 → f.getLsbD k = v.getLsbD (4 * i + k)) ∧
  (∀ (v : Value) (count : Nat), (decompose v count).length = count) ∧
  (∀ n : Nat, (reportOf .A n).fields = decompose (BitVec.ofNat 16 n) 4 ∧
    (reportOf .B n).fields = decompose (BitVec.ofNat 16 n) 4 ∧ (reportOf .C n).fields = [] ∧
    (reportOf .D n).fields = decompose (BitVec.ofNat 16 n) 2)

/-- R139: the round-trip law of the field decomposer. -/
def Obligations.FieldsRoundTrip : Prop :=
  (∀ v : Value, Nat.ofDigits 16 ((decompose v 4).map BitVec.toNat) = v.toNat) ∧
  (∀ v : Value, v.toNat < 256 → Nat.ofDigits 16 ((decompose v 2).map BitVec.toNat) = v.toNat)

/-- 41_frontend.md R140 (which the spec derives from R137 and R89): after a transmission on a multiplexer channel, field M(i+1) of the value is at the outputs `Q[c][4i+3:4i]`. -/
def Obligations.SelectFieldsAtOutputs : Prop :=
  ∀ (c : Channel) (v : Value) (s : State), s.sclk c = false → DefaultLength s c → c ≠ .C →
    ∃ t, exec (Instr.transmit c v) s = .next t ∧
      ∀ i, i < c.fields → ∃ f, (decompose v c.fields)[i]? = some f ∧
        t.selectField c i = [f.getLsbD 0, f.getLsbD 1, f.getLsbD 2, f.getLsbD 3]

/-- R121 and R122: an idle front-end waits for a whole line; an empty line, with or without CR, leaves it Idle with no
output; any other is stripped of its terminator and processed; one holding only whitespace is not empty and fails as UNKNOWN.
That reading a line is one step is the model's division (log 16). -/
def Obligations.IdleReadsOneLine : Prop :=
  ∀ (p : Params) (s : State), s.rst = false → s.st = .idle → s.reqValid = false → s.fe = .idle →
    ('\n' ∉ s.rx → stepWith p s = .next { s with held := none }) ∧
    (∀ rest, s.rx = '\n' :: rest ∨ s.rx = '\r' :: '\n' :: rest →
      stepWith p s = .next { s with rx := rest, held := none }) ∧
    (∀ line rest, '\n' ∉ line → line ≠ [] →
      (s.rx = line ++ '\n' :: rest ∧ line.getLast? ≠ some '\r') ∨ s.rx = line ++ '\r' :: '\n' :: rest →
      stepWith p s = .next { s with rx := rest, fe := .dispatching line, held := none }) ∧
    (∀ line, line ≠ [] → Blank line → dispatch p.hexOverflow line = .error .unknown)

/-- R171: codes, and the quoted diagnostic text, which stands in what is emitted. -/
def Obligations.FailureTable : Prop :=
  (∀ g : Channel, failureCode (.format g) = 1 ∧ failureFragment (.format g) = "invalid format".toList) ∧
  (∀ g : Channel, failureCode (.range g) = 2 ∧ failureFragment (.range g) = "out of range".toList) ∧
  (∀ g : Channel, failureCode (.binlen g g.width) = 3) ∧
  (∀ g : Channel, failureFragment (.binlen g 8) = "Binary string too long (max 8 bits)".toList ∧
    failureFragment (.binlen g 16) = "Binary string too long (max 16 bits)".toList) ∧
  failureCode .unknown = 4 ∧ failureFragment .unknown = "Unknown command prefix".toList ∧
  ∀ f : Failure, failureFragment f <:+: emissionText (.diagnostic f)

/-- R120, R121, R135, R136, R65: a command line from an idle front-end and a ready block is handled whole in four steps:
read, dispatched with its report, transmitted, confirmed. The group's chain then holds the value and the machine is idle
again on the next line. The division into steps is the model's (logs 1 and 16), and so is that the word stays on the ports
(log 24). -/
def Obligations.CommandEndToEnd : Prop :=
  ∀ (p : Params) (s : State) (g : Channel) (token ending rest : Text) (n : Nat),
    s.rst = false → s.st = .idle → s.boot = false → s.reqValid = false → s.fe = .idle →
    s.sclk g = false → DefaultLength s g → '\n' ∉ token →
    (ending = ['\n'] ∧ token.getLast? ≠ some '\r') ∨ ending = ['\r', '\n'] →
    parse p.hexOverflow g.width token = .ok n →
    s.rx = g.keyword ++ ' ' :: token ++ ending ++ rest →
    stepsWith p 4 s = .next { delivered g (BitVec.ofNat 16 n) s with
      reqCh := g.code, reqValue := BitVec.ofNat 16 n, rx := rest, held := none,
      tx := s.tx ++ [.report (reportOf g n), .confirmation g, .usageHelp] }

/-- R173 and R174: a line that fails is handled whole in two steps and leaves everything but the serial line as it was;
the next line is handled from Idle. The division into steps is the model's (log 16). -/
def Obligations.FailedLineEndToEnd : Prop :=
  ∀ (p : Params) (s : State) (line ending rest : Text) (f : Failure),
    s.rst = false → s.st = .idle → s.reqValid = false → s.fe = .idle → '\n' ∉ line → line ≠ [] →
    (ending = ['\n'] ∧ line.getLast? ≠ some '\r') ∨ ending = ['\r', '\n'] →
    dispatch p.hexOverflow line = .error f → s.rx = line ++ ending ++ rest →
    stepsWith p 2 s = .next { s with rx := rest, held := none, tx := s.tx ++ [.diagnostic f, .usageHelp] }

/-- R141, R191 to R193 at the level of `step`: from every state with the block in the reset column of R22, the front-end
before its startup output and no request presented, whatever the chains (of default length), the serial line and the
ports' word hold, 183 steps (one startup output, 181 FSM states, one output at the end of the clear) reach the idle
machine: banner and usage help twice, no character read, every chain zero. The count of steps is the model's (logs 1 and
2). -/
def Obligations.StartupRun : Prop :=
  ∀ (p : Params) (s : State), InReset s → s.rst = false → s.reqValid = false → s.fe = .startup →
    (∀ c, DefaultLength s c) →
    stepsWith p 183 s = .next { clearedState s with
      held := none, fe := .idle, tx := s.tx ++ [.banner, .usageHelp, .banner, .usageHelp] }

end SpecStatements
end

