-- ==== Sys2Proof/Laws/State.lean ====
section
/-! SUPPORT. The small laws of State: one per field per setter, and the laws of per-channel values. -/

namespace Sys2Proof

/-! ### Channels and per-channel values -/

@[simp] theorem Channel.ofCode_code (c : Channel) : Channel.ofCode c.code = c := by cases c <;> rfl

theorem Channel.code_ofCode (b : BitVec 2) : (Channel.ofCode b).code = b := by
  revert b; decide

theorem Channel.code_index (c : Channel) : c.code.toNat = c.index := by cases c <;> rfl

theorem Channel.index_lt (c : Channel) : c.index < 4 := by cases c <;> decide

theorem Channel.width_pos (c : Channel) : 0 < c.width := by cases c <;> decide

theorem Channel.width_le (c : Channel) : c.width ≤ 16 := by cases c <;> decide

theorem Channel.width_toNat (c : Channel) : (BitVec.ofNat 5 c.width).toNat = c.width := by cases c <;> rfl

@[simp] theorem PerChannel.get_set_self {α : Type} (x : PerChannel α) (c : Channel) (v : α) : (x.set c v).get c = v := by
  cases c <;> rfl

theorem PerChannel.get_set_ne {α : Type} (x : PerChannel α) {c e : Channel} (v : α) (h : e ≠ c) :
    (x.set c v).get e = x.get e := by
  cases c <;> cases e <;> first | rfl | exact absurd rfl h

theorem PerChannel.get_set {α : Type} (x : PerChannel α) (c e : Channel) (v : α) :
    (x.set c v).get e = if e = c then v else x.get e := by
  cases c <;> cases e <;> rfl

@[simp] theorem PerChannel.set_set {α : Type} (x : PerChannel α) (c : Channel) (v w : α) :
    (x.set c v).set c w = x.set c w := by cases c <;> rfl

@[simp] theorem PerChannel.set_get {α : Type} (x : PerChannel α) (c : Channel) : x.set c (x.get c) = x := by
  cases c <;> rfl

@[simp] theorem PerChannel.get_tabulate {α : Type} (f : Channel → α) (c : Channel) :
    (PerChannel.tabulate f).get c = f c := by cases c <;> rfl

theorem PerChannel.ext_get {α : Type} {x y : PerChannel α} (h : ∀ c, x.get c = y.get c) : x = y := by
  have ha := h .A
  have hb := h .B
  have hc := h .C
  have hd := h .D
  cases x; cases y
  simp only [PerChannel.get] at ha hb hc hd
  simp [ha, hb, hc, hd]

namespace Machine

/-! ### Setters -/

@[simp] theorem State.setLines_lines (s : State) (c : Channel) (l : Lines) : (s.setLines c l).lines = s.lines.set c l := rfl
@[simp] theorem State.setLines_st (s : State) (c : Channel) (l : Lines) : (s.setLines c l).st = s.st := rfl
@[simp] theorem State.setLines_ch (s : State) (c : Channel) (l : Lines) : (s.setLines c l).ch = s.ch := rfl
@[simp] theorem State.setLines_sr (s : State) (c : Channel) (l : Lines) : (s.setLines c l).sr = s.sr := rfl
@[simp] theorem State.setLines_cnt (s : State) (c : Channel) (l : Lines) : (s.setLines c l).cnt = s.cnt := rfl
@[simp] theorem State.setLines_dw (s : State) (c : Channel) (l : Lines) : (s.setLines c l).dw = s.dw := rfl
@[simp] theorem State.setLines_boot (s : State) (c : Channel) (l : Lines) : (s.setLines c l).boot = s.boot := rfl
@[simp] theorem State.setLines_clr (s : State) (c : Channel) (l : Lines) : (s.setLines c l).clr = s.clr := rfl
@[simp] theorem State.setLines_rst (s : State) (c : Channel) (l : Lines) : (s.setLines c l).rst = s.rst := rfl
@[simp] theorem State.setLines_reqValid (s : State) (c : Channel) (l : Lines) : (s.setLines c l).reqValid = s.reqValid := rfl
@[simp] theorem State.setLines_reqCh (s : State) (c : Channel) (l : Lines) : (s.setLines c l).reqCh = s.reqCh := rfl
@[simp] theorem State.setLines_reqValue (s : State) (c : Channel) (l : Lines) : (s.setLines c l).reqValue = s.reqValue := rfl
@[simp] theorem State.setLines_held (s : State) (c : Channel) (l : Lines) : (s.setLines c l).held = s.held := rfl
@[simp] theorem State.setLines_chains (s : State) (c : Channel) (l : Lines) : (s.setLines c l).chains = s.chains := rfl
@[simp] theorem State.setLines_fe (s : State) (c : Channel) (l : Lines) : (s.setLines c l).fe = s.fe := rfl
@[simp] theorem State.setLines_rx (s : State) (c : Channel) (l : Lines) : (s.setLines c l).rx = s.rx := rfl
@[simp] theorem State.setLines_tx (s : State) (c : Channel) (l : Lines) : (s.setLines c l).tx = s.tx := rfl

@[simp] theorem State.setChain_lines (s : State) (c : Channel) (k : Chain) : (s.setChain c k).lines = s.lines := rfl
@[simp] theorem State.setChain_st (s : State) (c : Channel) (k : Chain) : (s.setChain c k).st = s.st := rfl
@[simp] theorem State.setChain_ch (s : State) (c : Channel) (k : Chain) : (s.setChain c k).ch = s.ch := rfl
@[simp] theorem State.setChain_sr (s : State) (c : Channel) (k : Chain) : (s.setChain c k).sr = s.sr := rfl
@[simp] theorem State.setChain_cnt (s : State) (c : Channel) (k : Chain) : (s.setChain c k).cnt = s.cnt := rfl
@[simp] theorem State.setChain_dw (s : State) (c : Channel) (k : Chain) : (s.setChain c k).dw = s.dw := rfl
@[simp] theorem State.setChain_boot (s : State) (c : Channel) (k : Chain) : (s.setChain c k).boot = s.boot := rfl
@[simp] theorem State.setChain_clr (s : State) (c : Channel) (k : Chain) : (s.setChain c k).clr = s.clr := rfl
@[simp] theorem State.setChain_rst (s : State) (c : Channel) (k : Chain) : (s.setChain c k).rst = s.rst := rfl
@[simp] theorem State.setChain_reqValid (s : State) (c : Channel) (k : Chain) : (s.setChain c k).reqValid = s.reqValid := rfl
@[simp] theorem State.setChain_reqCh (s : State) (c : Channel) (k : Chain) : (s.setChain c k).reqCh = s.reqCh := rfl
@[simp] theorem State.setChain_reqValue (s : State) (c : Channel) (k : Chain) : (s.setChain c k).reqValue = s.reqValue := rfl
@[simp] theorem State.setChain_held (s : State) (c : Channel) (k : Chain) : (s.setChain c k).held = s.held := rfl
@[simp] theorem State.setChain_chains (s : State) (c : Channel) (k : Chain) : (s.setChain c k).chains = s.chains.set c k := rfl
@[simp] theorem State.setChain_fe (s : State) (c : Channel) (k : Chain) : (s.setChain c k).fe = s.fe := rfl
@[simp] theorem State.setChain_rx (s : State) (c : Channel) (k : Chain) : (s.setChain c k).rx = s.rx := rfl
@[simp] theorem State.setChain_tx (s : State) (c : Channel) (k : Chain) : (s.setChain c k).tx = s.tx := rfl

@[simp] theorem State.setFe_lines (s : State) (f : FrontEnd) : (s.setFe f).lines = s.lines := rfl
@[simp] theorem State.setFe_st (s : State) (f : FrontEnd) : (s.setFe f).st = s.st := rfl
@[simp] theorem State.setFe_ch (s : State) (f : FrontEnd) : (s.setFe f).ch = s.ch := rfl
@[simp] theorem State.setFe_sr (s : State) (f : FrontEnd) : (s.setFe f).sr = s.sr := rfl
@[simp] theorem State.setFe_cnt (s : State) (f : FrontEnd) : (s.setFe f).cnt = s.cnt := rfl
@[simp] theorem State.setFe_dw (s : State) (f : FrontEnd) : (s.setFe f).dw = s.dw := rfl
@[simp] theorem State.setFe_boot (s : State) (f : FrontEnd) : (s.setFe f).boot = s.boot := rfl
@[simp] theorem State.setFe_clr (s : State) (f : FrontEnd) : (s.setFe f).clr = s.clr := rfl
@[simp] theorem State.setFe_rst (s : State) (f : FrontEnd) : (s.setFe f).rst = s.rst := rfl
@[simp] theorem State.setFe_reqValid (s : State) (f : FrontEnd) : (s.setFe f).reqValid = s.reqValid := rfl
@[simp] theorem State.setFe_reqCh (s : State) (f : FrontEnd) : (s.setFe f).reqCh = s.reqCh := rfl
@[simp] theorem State.setFe_reqValue (s : State) (f : FrontEnd) : (s.setFe f).reqValue = s.reqValue := rfl
@[simp] theorem State.setFe_held (s : State) (f : FrontEnd) : (s.setFe f).held = s.held := rfl
@[simp] theorem State.setFe_chains (s : State) (f : FrontEnd) : (s.setFe f).chains = s.chains := rfl
@[simp] theorem State.setFe_fe (s : State) (f : FrontEnd) : (s.setFe f).fe = f := rfl
@[simp] theorem State.setFe_rx (s : State) (f : FrontEnd) : (s.setFe f).rx = s.rx := rfl
@[simp] theorem State.setFe_tx (s : State) (f : FrontEnd) : (s.setFe f).tx = s.tx := rfl

@[simp] theorem State.emit_lines (s : State) (es : List Emission) : (s.emit es).lines = s.lines := rfl
@[simp] theorem State.emit_st (s : State) (es : List Emission) : (s.emit es).st = s.st := rfl
@[simp] theorem State.emit_ch (s : State) (es : List Emission) : (s.emit es).ch = s.ch := rfl
@[simp] theorem State.emit_sr (s : State) (es : List Emission) : (s.emit es).sr = s.sr := rfl
@[simp] theorem State.emit_cnt (s : State) (es : List Emission) : (s.emit es).cnt = s.cnt := rfl
@[simp] theorem State.emit_dw (s : State) (es : List Emission) : (s.emit es).dw = s.dw := rfl
@[simp] theorem State.emit_boot (s : State) (es : List Emission) : (s.emit es).boot = s.boot := rfl
@[simp] theorem State.emit_clr (s : State) (es : List Emission) : (s.emit es).clr = s.clr := rfl
@[simp] theorem State.emit_rst (s : State) (es : List Emission) : (s.emit es).rst = s.rst := rfl
@[simp] theorem State.emit_reqValid (s : State) (es : List Emission) : (s.emit es).reqValid = s.reqValid := rfl
@[simp] theorem State.emit_reqCh (s : State) (es : List Emission) : (s.emit es).reqCh = s.reqCh := rfl
@[simp] theorem State.emit_reqValue (s : State) (es : List Emission) : (s.emit es).reqValue = s.reqValue := rfl
@[simp] theorem State.emit_held (s : State) (es : List Emission) : (s.emit es).held = s.held := rfl
@[simp] theorem State.emit_chains (s : State) (es : List Emission) : (s.emit es).chains = s.chains := rfl
@[simp] theorem State.emit_fe (s : State) (es : List Emission) : (s.emit es).fe = s.fe := rfl
@[simp] theorem State.emit_rx (s : State) (es : List Emission) : (s.emit es).rx = s.rx := rfl
@[simp] theorem State.emit_tx (s : State) (es : List Emission) : (s.emit es).tx = s.tx ++ es := rfl

@[simp] theorem State.setRx_lines (s : State) (r : Text) : (s.setRx r).lines = s.lines := rfl
@[simp] theorem State.setRx_st (s : State) (r : Text) : (s.setRx r).st = s.st := rfl
@[simp] theorem State.setRx_ch (s : State) (r : Text) : (s.setRx r).ch = s.ch := rfl
@[simp] theorem State.setRx_sr (s : State) (r : Text) : (s.setRx r).sr = s.sr := rfl
@[simp] theorem State.setRx_cnt (s : State) (r : Text) : (s.setRx r).cnt = s.cnt := rfl
@[simp] theorem State.setRx_dw (s : State) (r : Text) : (s.setRx r).dw = s.dw := rfl
@[simp] theorem State.setRx_boot (s : State) (r : Text) : (s.setRx r).boot = s.boot := rfl
@[simp] theorem State.setRx_clr (s : State) (r : Text) : (s.setRx r).clr = s.clr := rfl
@[simp] theorem State.setRx_rst (s : State) (r : Text) : (s.setRx r).rst = s.rst := rfl
@[simp] theorem State.setRx_reqValid (s : State) (r : Text) : (s.setRx r).reqValid = s.reqValid := rfl
@[simp] theorem State.setRx_reqCh (s : State) (r : Text) : (s.setRx r).reqCh = s.reqCh := rfl
@[simp] theorem State.setRx_reqValue (s : State) (r : Text) : (s.setRx r).reqValue = s.reqValue := rfl
@[simp] theorem State.setRx_held (s : State) (r : Text) : (s.setRx r).held = s.held := rfl
@[simp] theorem State.setRx_chains (s : State) (r : Text) : (s.setRx r).chains = s.chains := rfl
@[simp] theorem State.setRx_fe (s : State) (r : Text) : (s.setRx r).fe = s.fe := rfl
@[simp] theorem State.setRx_rx (s : State) (r : Text) : (s.setRx r).rx = r := rfl
@[simp] theorem State.setRx_tx (s : State) (r : Text) : (s.setRx r).tx = s.tx := rfl

@[simp] theorem State.setHeld_lines (s : State) (h : Option ReqWord) : (s.setHeld h).lines = s.lines := rfl
@[simp] theorem State.setHeld_st (s : State) (h : Option ReqWord) : (s.setHeld h).st = s.st := rfl
@[simp] theorem State.setHeld_ch (s : State) (h : Option ReqWord) : (s.setHeld h).ch = s.ch := rfl
@[simp] theorem State.setHeld_sr (s : State) (h : Option ReqWord) : (s.setHeld h).sr = s.sr := rfl
@[simp] theorem State.setHeld_cnt (s : State) (h : Option ReqWord) : (s.setHeld h).cnt = s.cnt := rfl
@[simp] theorem State.setHeld_dw (s : State) (h : Option ReqWord) : (s.setHeld h).dw = s.dw := rfl
@[simp] theorem State.setHeld_boot (s : State) (h : Option ReqWord) : (s.setHeld h).boot = s.boot := rfl
@[simp] theorem State.setHeld_clr (s : State) (h : Option ReqWord) : (s.setHeld h).clr = s.clr := rfl
@[simp] theorem State.setHeld_rst (s : State) (h : Option ReqWord) : (s.setHeld h).rst = s.rst := rfl
@[simp] theorem State.setHeld_reqValid (s : State) (h : Option ReqWord) : (s.setHeld h).reqValid = s.reqValid := rfl
@[simp] theorem State.setHeld_reqCh (s : State) (h : Option ReqWord) : (s.setHeld h).reqCh = s.reqCh := rfl
@[simp] theorem State.setHeld_reqValue (s : State) (h : Option ReqWord) : (s.setHeld h).reqValue = s.reqValue := rfl
@[simp] theorem State.setHeld_held (s : State) (h : Option ReqWord) : (s.setHeld h).held = h := rfl
@[simp] theorem State.setHeld_chains (s : State) (h : Option ReqWord) : (s.setHeld h).chains = s.chains := rfl
@[simp] theorem State.setHeld_fe (s : State) (h : Option ReqWord) : (s.setHeld h).fe = s.fe := rfl
@[simp] theorem State.setHeld_rx (s : State) (h : Option ReqWord) : (s.setHeld h).rx = s.rx := rfl
@[simp] theorem State.setHeld_tx (s : State) (h : Option ReqWord) : (s.setHeld h).tx = s.tx := rfl

@[simp] theorem State.setValid_lines (s : State) (v : Bool) : (s.setValid v).lines = s.lines := rfl
@[simp] theorem State.setValid_st (s : State) (v : Bool) : (s.setValid v).st = s.st := rfl
@[simp] theorem State.setValid_ch (s : State) (v : Bool) : (s.setValid v).ch = s.ch := rfl
@[simp] theorem State.setValid_sr (s : State) (v : Bool) : (s.setValid v).sr = s.sr := rfl
@[simp] theorem State.setValid_cnt (s : State) (v : Bool) : (s.setValid v).cnt = s.cnt := rfl
@[simp] theorem State.setValid_dw (s : State) (v : Bool) : (s.setValid v).dw = s.dw := rfl
@[simp] theorem State.setValid_boot (s : State) (v : Bool) : (s.setValid v).boot = s.boot := rfl
@[simp] theorem State.setValid_clr (s : State) (v : Bool) : (s.setValid v).clr = s.clr := rfl
@[simp] theorem State.setValid_rst (s : State) (v : Bool) : (s.setValid v).rst = s.rst := rfl
@[simp] theorem State.setValid_reqValid (s : State) (v : Bool) : (s.setValid v).reqValid = v := rfl
@[simp] theorem State.setValid_reqCh (s : State) (v : Bool) : (s.setValid v).reqCh = s.reqCh := rfl
@[simp] theorem State.setValid_reqValue (s : State) (v : Bool) : (s.setValid v).reqValue = s.reqValue := rfl
@[simp] theorem State.setValid_held (s : State) (v : Bool) : (s.setValid v).held = s.held := rfl
@[simp] theorem State.setValid_chains (s : State) (v : Bool) : (s.setValid v).chains = s.chains := rfl
@[simp] theorem State.setValid_fe (s : State) (v : Bool) : (s.setValid v).fe = s.fe := rfl
@[simp] theorem State.setValid_rx (s : State) (v : Bool) : (s.setValid v).rx = s.rx := rfl
@[simp] theorem State.setValid_tx (s : State) (v : Bool) : (s.setValid v).tx = s.tx := rfl

@[simp] theorem State.present_lines (s : State) (code : BitVec 2) (value : Value) : (s.present code value).lines = s.lines := rfl
@[simp] theorem State.present_st (s : State) (code : BitVec 2) (value : Value) : (s.present code value).st = s.st := rfl
@[simp] theorem State.present_ch (s : State) (code : BitVec 2) (value : Value) : (s.present code value).ch = s.ch := rfl
@[simp] theorem State.present_sr (s : State) (code : BitVec 2) (value : Value) : (s.present code value).sr = s.sr := rfl
@[simp] theorem State.present_cnt (s : State) (code : BitVec 2) (value : Value) : (s.present code value).cnt = s.cnt := rfl
@[simp] theorem State.present_dw (s : State) (code : BitVec 2) (value : Value) : (s.present code value).dw = s.dw := rfl
@[simp] theorem State.present_boot (s : State) (code : BitVec 2) (value : Value) : (s.present code value).boot = s.boot := rfl
@[simp] theorem State.present_clr (s : State) (code : BitVec 2) (value : Value) : (s.present code value).clr = s.clr := rfl
@[simp] theorem State.present_rst (s : State) (code : BitVec 2) (value : Value) : (s.present code value).rst = s.rst := rfl
@[simp] theorem State.present_reqValid (s : State) (code : BitVec 2) (value : Value) : (s.present code value).reqValid = true := rfl
@[simp] theorem State.present_reqCh (s : State) (code : BitVec 2) (value : Value) : (s.present code value).reqCh = code := rfl
@[simp] theorem State.present_reqValue (s : State) (code : BitVec 2) (value : Value) : (s.present code value).reqValue = value := rfl
@[simp] theorem State.present_held (s : State) (code : BitVec 2) (value : Value) : (s.present code value).held = s.held := rfl
@[simp] theorem State.present_chains (s : State) (code : BitVec 2) (value : Value) : (s.present code value).chains = s.chains := rfl
@[simp] theorem State.present_fe (s : State) (code : BitVec 2) (value : Value) : (s.present code value).fe = s.fe := rfl
@[simp] theorem State.present_rx (s : State) (code : BitVec 2) (value : Value) : (s.present code value).rx = s.rx := rfl
@[simp] theorem State.present_tx (s : State) (code : BitVec 2) (value : Value) : (s.present code value).tx = s.tx := rfl

@[simp] theorem State.setLines_setLines (s : State) (c : Channel) (l m : Lines) :
    (s.setLines c l).setLines c m = s.setLines c m := by simp [State.setLines]

@[simp] theorem State.setChain_setChain (s : State) (c : Channel) (k m : Chain) :
    (s.setChain c k).setChain c m = s.setChain c m := by simp [State.setChain]

theorem State.setChain_setLines (s : State) (c e : Channel) (k : Chain) (l : Lines) :
    (s.setLines e l).setChain c k = (s.setChain c k).setLines e l := rfl

end Machine

end Sys2Proof
end

