-- ==== Sys2Proof/Laws/Decode.lean ====
section
/-! SUPPORT. The decoder and encoder on their fields (R60 to R62). -/

namespace Sys2Proof

theorem getLsbD_fields (ch : BitVec 2) (v : Value) (k : Nat) :
    BitVec.getLsbD (ch ++ v : ReqWord) k = if k < 16 then v.getLsbD k else ch.getLsbD (k - 16) :=
  BitVec.getLsbD_append

theorem chField_append (ch : BitVec 2) (v : Value) : chField (ch ++ v) = ch := by
  apply BitVec.eq_of_getLsbD_eq
  intro i hi
  rw [chField, BitVec.getLsbD_extractLsb', getLsbD_fields]
  simp [hi]

theorem valueField_append (ch : BitVec 2) (v : Value) : valueField (ch ++ v) = v := by
  apply BitVec.eq_of_getLsbD_eq
  intro i hi
  rw [valueField, BitVec.getLsbD_extractLsb', getLsbD_fields]
  simp [hi]

theorem append_fields (w : ReqWord) : (chField w ++ valueField w : ReqWord) = w := by
  apply BitVec.eq_of_getLsbD_eq
  intro i hi
  rw [getLsbD_fields]
  simp only [chField, valueField, BitVec.getLsbD_extractLsb']
  by_cases h : i < 16
  · simp [h]
  · have : i - 16 < 2 := by omega
    simp [h, this, show 16 + (i - 16) = i by omega]

theorem toNat_append_eq {m n : Nat} (x : BitVec m) (y : BitVec n) :
    (x ++ y).toNat = x.toNat * 2 ^ n + y.toNat := by
  rw [BitVec.toNat_append, ← Nat.shiftLeft_add_eq_or_of_lt y.isLt, Nat.shiftLeft_eq]

/-- Three bytes as a number, the first byte the least significant (log 13). -/
theorem wordOfBytes_toNat (b0 b1 b2 : Byte) :
    (wordOfBytes b0 b1 b2).toNat = (b0.toNat + 256 * b1.toNat + 65536 * b2.toNat) % 2 ^ 18 := by
  unfold wordOfBytes
  rw [BitVec.toNat_setWidth]
  have h : BitVec.toNat (b2 ++ b1 ++ b0 : BitVec 24) = b0.toNat + 256 * b1.toNat + 65536 * b2.toNat := by
    rw [show BitVec.toNat (b2 ++ b1 ++ b0 : BitVec 24) = _ from toNat_append_eq (b2 ++ b1) b0, toNat_append_eq b2 b1]
    omega
  rw [h]

theorem decodeWord_eq (w : ReqWord) :
    decodeWord w = Instr.transmit (Channel.ofCode (chField w)) (valueField w) := by
  unfold decodeWord Instr.transmit
  cases Channel.ofCode (chField w) <;> rfl

@[simp] theorem Instr.transmit_channel (c : Channel) (v : Value) : (Instr.transmit c v).channel = c := by
  cases c <;> rfl

@[simp] theorem Instr.transmit_value (c : Channel) (v : Value) : (Instr.transmit c v).value = v := by
  cases c <;> rfl

theorem Instr.transmit_self (i : Instr) : Instr.transmit i.channel i.value = i := by cases i <;> rfl

theorem decodeWord_append (ch : BitVec 2) (v : Value) :
    decodeWord (ch ++ v) = Instr.transmit (Channel.ofCode ch) v := by
  rw [decodeWord_eq, chField_append, valueField_append]

end Sys2Proof
end

