-- ==== Sys2Proof/Laws/Transmit.lean ====
section
/-! SUPPORT. What wire events do to one channel, and what a whole transmission does (R80 to R89). -/

namespace Sys2Proof.Machine

/-! ### One channel -/

/-- A wire event seen from its own channel: the lines and the chain. -/
def laneStep (x : Lines × Chain) (e : WireEvent) : Lines × Chain :=
  (x.1.drive e.line e.level, x.2.react x.1 e.line e.level)

/-- Lines and chain of a channel. -/
def State.lane (s : State) (c : Channel) : Lines × Chain := (s.lines.get c, s.chains.get c)

/-- Write lines and chain of a channel. -/
def State.setLane (s : State) (c : Channel) (x : Lines × Chain) : State := (s.setChain c x.2).setLines c x.1

theorem drive_eq (e : WireEvent) (s : State) : drive e s = s.setLane e.ch (laneStep (s.lane e.ch) e) := rfl

@[simp] theorem State.lane_setLane (s : State) (c : Channel) (x : Lines × Chain) : (s.setLane c x).lane c = x := by
  simp [State.lane, State.setLane]

@[simp] theorem State.setLane_setLane (s : State) (c : Channel) (x y : Lines × Chain) :
    (s.setLane c x).setLane c y = s.setLane c y := by
  simp [State.setLane, State.setChain_setLines]

@[simp] theorem State.setLane_lane (s : State) (c : Channel) : s.setLane c (s.lane c) = s := by
  simp [State.setLane, State.lane, State.setChain, State.setLines]

/-- Events of one channel change that channel's lines and chain and nothing else (R51). -/
theorem driveAll_eq (c : Channel) (es : List WireEvent) (h : ∀ e ∈ es, e.ch = c) (s : State) :
    driveAll es s = s.setLane c (es.foldl laneStep (s.lane c)) := by
  induction es generalizing s with
  | nil => simp [driveAll]
  | cons e es ih =>
    have he : e.ch = c := h e (by simp)
    have hs : driveAll (e :: es) s = driveAll es (drive e s) := rfl
    rw [hs, ih (fun x hx => h x (by simp [hx])), drive_eq, he]
    simp

theorem driveAll_append (xs ys : List WireEvent) (s : State) :
    driveAll (xs ++ ys) s = driveAll ys (driveAll xs s) := by simp [driveAll]

theorem transmitEvents_ch (c : Channel) (v : Value) : ∀ e ∈ transmitEvents c v, e.ch = c := by
  intro e he
  simp only [transmitEvents, List.mem_cons, List.mem_append, List.mem_flatMap, bitEvents] at he
  rcases he with rfl | ⟨b, _, rfl | rfl | rfl | h⟩ | rfl | h <;> first | rfl | cases h

/-! ### Bits into a chain -/

/-- A chain after bits were clocked in, the first bit first (R179). -/
def Chain.shiftAll (k : Chain) (bits : List Bool) : Chain := bits.foldl Chain.shift k

@[simp] theorem Chain.shift_outs (k : Chain) (d : Bool) : (k.shift d).outs = k.outs := rfl

@[simp] theorem Chain.shift_length (k : Chain) (d : Bool) : (k.shift d).stages.length = k.stages.length := by
  simp [Chain.shift]

/-- The stages after bits were clocked in: the last bit is in stage 0 (R44, R179). -/
theorem Chain.shiftAll_eq (k : Chain) (bits : List Bool) :
    k.shiftAll bits = { stages := (bits.reverse ++ k.stages).take k.stages.length, outs := k.outs } := by
  induction bits generalizing k with
  | nil => simp [Chain.shiftAll]
  | cons b bs ih =>
    have h : k.shiftAll (b :: bs) = (k.shift b).shiftAll bs := rfl
    rw [h, ih]
    have hl : (bs.reverse ++ (b :: k.stages).take k.stages.length).take k.stages.length
        = ((b :: bs).reverse ++ k.stages).take k.stages.length := by
      rw [List.reverse_cons, List.append_assoc, List.singleton_append, List.take_append, List.take_append,
        List.take_take]
      congr 2
      omega
    simp only [Chain.shift_outs, Chain.shift_length]
    rw [← hl]
    rfl

theorem bitsMsbFirst_length (w : Nat) (v : Value) : (bitsMsbFirst w v).length = w := by
  induction w with
  | zero => rfl
  | succ w ih => simp [bitsMsbFirst, ih]

theorem bitsMsbFirst_reverse (w : Nat) (v : Value) : (bitsMsbFirst w v).reverse = bitsLsbFirst w v := by
  induction w with
  | zero => rfl
  | succ w ih => simp [bitsMsbFirst, bitsLsbFirst, ih, List.range_succ]

@[simp] theorem bitsLsbFirst_length (w : Nat) (v : Value) : (bitsLsbFirst w v).length = w := by
  simp [bitsLsbFirst]

theorem bitsMsbFirst_get (w : Nat) (v : Value) (j : Nat) (h : j < w) :
    (bitsMsbFirst w v)[j]? = some (v.getLsbD (w - 1 - j)) := by
  induction w generalizing j with
  | zero => omega
  | succ w ih =>
    cases j with
    | zero => simp [bitsMsbFirst]
    | succ j =>
      have := ih j (by omega)
      simp only [bitsMsbFirst, List.getElem?_cons_succ, this]
      congr 2; omega

/-- The bit events of a transmission, seen from the channel: data follows the last bit, the clock ends low, the latch is
not touched, the chain takes every bit (R83, R179). -/
theorem laneSteps_bits (c : Channel) (bits : List Bool) (l : Lines) (k : Chain) (hc : l.clk = false) :
    (bits.flatMap (bitEvents c)).foldl laneStep (l, k)
      = ({ l with data := (bits.getLast?).getD l.data }, k.shiftAll bits) := by
  induction bits generalizing l k with
  | nil => simp [Chain.shiftAll]
  | cons b bs ih =>
    have h1 : (bitEvents c b).foldl laneStep (l, k) = ({ l with data := b }, k.shift b) := by
      cases l
      simp_all [bitEvents, laneStep, Lines.drive, Chain.react]
    rw [List.flatMap_cons, List.foldl_append, h1, ih { l with data := b } _ hc]
    cases bs with
    | nil => simp [Chain.shiftAll]
    | cons b' bs => simp [Chain.shiftAll, List.getLast?_cons]

/-- A whole transmission, seen from the channel (R89). -/
theorem laneSteps_transmit (c : Channel) (v : Value) (l : Lines) (k : Chain) (hc : l.clk = false) :
    (transmitEvents c v).foldl laneStep (l, k)
      = ({ data := v.getLsbD 0, clk := false, lat := true },
         (k.shiftAll (bitsMsbFirst c.width v)).commit) := by
  have hlast : ((bitsMsbFirst c.width v).getLast?).getD l.data = v.getLsbD 0 := by
    rw [← List.head?_reverse, bitsMsbFirst_reverse]
    cases c <;> rfl
  have h0 : laneStep (l, k) { ch := c, line := .lat, level := false } = ({ l with lat := false }, k) := by
    simp [laneStep, Lines.drive, Chain.react]
  rw [transmitEvents, List.foldl_cons, List.foldl_append, h0, laneSteps_bits c _ { l with lat := false } _ hc,
    hlast]
  simp [laneStep, Lines.drive, Chain.react, hc]

/-! ### The whole machine -/

/-- The chain of a channel after a transmission of `v` (R44). -/
def Chain.afterTransmission (k : Chain) (w : Nat) (v : Value) : Chain :=
  { stages := (bitsLsbFirst w v ++ k.stages).take k.stages.length
    outs   := (bitsLsbFirst w v ++ k.stages).take k.stages.length }

theorem laneSteps_transmit_chain (c : Channel) (v : Value) (l : Lines) (k : Chain) (hc : l.clk = false) :
    (transmitEvents c v).foldl laneStep (l, k)
      = ({ data := v.getLsbD 0, clk := false, lat := true }, k.afterTransmission c.width v) := by
  rw [laneSteps_transmit c v l k hc, Chain.shiftAll_eq, bitsMsbFirst_reverse]
  rfl

/-- What a request does, from a low clock line (R89, R95). -/
theorem runTransmission_eq (c : Channel) (v : Value) (s : State) (hc : s.sclk c = false) :
    runTransmission c v s
      = { s with
          lines  := s.lines.set c { data := v.getLsbD 0, clk := false, lat := true }
          chains := s.chains.set c ((s.chains.get c).afterTransmission c.width v)
          ch     := c
          sr     := v
          cnt    := 0#5
          dw     := 0
          st     := afterLatHi s.boot } := by
  rw [runTransmission, driveAll_eq c _ (transmitEvents_ch c v)]
  simp only [State.lane]
  rw [laneSteps_transmit_chain c v _ _ (by exact hc)]
  rfl

theorem exec_eq (i : Instr) (s : State) : exec i s = .next (runTransmission i.channel i.value s) := by
  cases i <;> rfl

/-- A chain of the channel's width holds the value, whatever it held before (R44, R48, R89). -/
theorem Chain.afterTransmission_width (k : Chain) (w : Nat) (v : Value) (h : k.stages.length = w) :
    k.afterTransmission w v = { stages := bitsLsbFirst w v, outs := bitsLsbFirst w v } := by
  subst h
  simp [Chain.afterTransmission]

/-! ### Parts of a transmission -/

theorem bitEvents_flatMap_length (c : Channel) (bits : List Bool) :
    (bits.flatMap (bitEvents c)).length = 3 * bits.length := by
  induction bits with
  | nil => rfl
  | cons b bs ih => simp [List.flatMap_cons, ih, bitEvents]; omega

theorem bitEvents_flatMap_take (c : Channel) (bits : List Bool) (j : Nat) :
    (bits.flatMap (bitEvents c)).take (3 * j) = (bits.take j).flatMap (bitEvents c) := by
  induction bits generalizing j with
  | nil => simp
  | cons b bs ih =>
    cases j with
    | zero => simp
    | succ j =>
      simp only [List.flatMap_cons, List.take_succ_cons, ← ih]
      rw [show 3 * (j + 1) = 3 * j + 3 by omega]
      simp [bitEvents]

/-- Event `3j + k` of the bits is event `k` of bit `j`. -/
theorem bitEvents_flatMap_get (c : Channel) (bits : List Bool) (j k : Nat) (hk : k < 3) :
    (bits.flatMap (bitEvents c))[3 * j + k]? = bits[j]?.bind fun b => (bitEvents c b)[k]? := by
  induction bits generalizing j with
  | nil => simp
  | cons b bs ih =>
    simp only [List.flatMap_cons]
    cases j with
    | zero =>
      simp only [Nat.mul_zero, Nat.zero_add, List.getElem?_cons_zero, Option.bind_some]
      rw [List.getElem?_append_left (by simpa [bitEvents] using hk)]
    | succ j =>
      rw [List.getElem?_append_right (by simp [bitEvents]; omega)]
      rw [show 3 * (j + 1) + k - (bitEvents c b).length = 3 * j + k by simp [bitEvents]; omega, ih]
      simp

/-- The first `3j + 1` events: the latch low and `j` whole bits. -/
theorem transmitEvents_take (c : Channel) (v : Value) (j : Nat) (hj : j ≤ c.width) :
    (transmitEvents c v).take (3 * j + 1) = { ch := c, line := .lat, level := false } ::
      ((bitsMsbFirst c.width v).take j).flatMap (bitEvents c) := by
  rw [transmitEvents, List.take_succ_cons, List.take_append_of_le_length
    (by rw [bitEvents_flatMap_length, bitsMsbFirst_length]; omega), bitEvents_flatMap_take]

/-- The channel after the first `3j + 1` events (R83, R85, R179). -/
theorem laneSteps_take (c : Channel) (v : Value) (j : Nat) (hj : j ≤ c.width) (l : Lines) (k : Chain)
    (hc : l.clk = false) :
    ((transmitEvents c v).take (3 * j + 1)).foldl laneStep (l, k) =
      ({ data := if j = 0 then l.data else v.getLsbD (c.width - j), clk := false, lat := false },
        k.shiftAll ((bitsMsbFirst c.width v).take j)) := by
  have h0 : laneStep (l, k) { ch := c, line := .lat, level := false } = ({ l with lat := false }, k) := by
    simp [laneStep, Lines.drive, Chain.react]
  rw [transmitEvents_take c v j hj, List.foldl_cons, h0, laneSteps_bits c _ { l with lat := false } _ hc]
  congr 2
  cases j with
  | zero => simp
  | succ j =>
    rw [List.getLast?_eq_getElem?]
    simp only [List.length_take, bitsMsbFirst_length, Nat.min_eq_left hj, Nat.add_sub_cancel]
    rw [List.getElem?_take_of_lt (by omega), bitsMsbFirst_get _ _ _ (by omega)]
    simp
    congr 1; omega

/-- A part of a transmission acts on its own channel only. -/
theorem driveAll_take_lane (c : Channel) (v : Value) (n : Nat) (s : State) :
    (driveAll ((transmitEvents c v).take n) s).lane c = ((transmitEvents c v).take n).foldl laneStep (s.lane c) := by
  rw [driveAll_eq c _ (fun e he => transmitEvents_ch c v e (List.mem_of_mem_take he))]
  simp

end Sys2Proof.Machine
end

