-- ==== Sys2Proof/Laws/Engine.lean ====
section
/-! SUPPORT. What the reference FSM does (R94 to R98): one edge, one dwell, one transmission. -/

namespace Sys2Proof.Machine

open Sys2Proof.Safety

/-! ### One rising edge -/

/-- The three things a rising edge can be. -/
theorem clockEdge_cases (p : Params) (s : State) :
    (s.rst = true ∧ clockEdge p s = .next (resetEdge s)) ∨
    (s.rst = false ∧ requestChanged s = true ∧ clockEdge p s = .fault .requestChanged) ∨
    (s.rst = false ∧ requestChanged s = false ∧
      clockEdge p s = .next ((fsmCycle p.dwell s).setHeld (if accepts s then none else sampled s))) := by
  unfold clockEdge
  cases s.rst <;> cases requestChanged s <;> simp

theorem clockEdge_fsm (p : Params) (s : State) (hr : s.rst = false) (hc : requestChanged s = false) :
    clockEdge p s = .next ((fsmCycle p.dwell s).setHeld (if accepts s then none else sampled s)) := by
  simp [clockEdge, hr, hc]

theorem clockEdges_succ (p : Params) (n : Nat) (s t : State) (h : clockEdge p s = .next t) :
    clockEdges p (n + 1) s = clockEdges p n t := by
  simp [clockEdges, h]

theorem clockEdges_add (p : Params) (m n : Nat) (s t : State) (h : clockEdges p m s = .next t) :
    clockEdges p (m + n) s = clockEdges p n t := by
  induction m generalizing s with
  | zero => cases h; simp
  | succ m ih =>
    rw [Nat.add_right_comm]
    simp only [clockEdges] at h ⊢
    split at h
    · exact ih _ h
    · cases h
    · cases h

/-! ### What the FSM leaves alone -/

/-- `t` has the ports, the monitor, the front-end and the serial line of `s`. -/
structure SameOutside (s t : State) : Prop where
  rst      : t.rst = s.rst
  reqValid : t.reqValid = s.reqValid
  reqCh    : t.reqCh = s.reqCh
  reqValue : t.reqValue = s.reqValue
  held     : t.held = s.held
  fe       : t.fe = s.fe
  rx       : t.rx = s.rx
  tx       : t.tx = s.tx

theorem SameOutside.refl (s : State) : SameOutside s s := ⟨rfl, rfl, rfl, rfl, rfl, rfl, rfl, rfl⟩

theorem SameOutside.trans {s t u : State} (h : SameOutside s t) (k : SameOutside t u) : SameOutside s u :=
  ⟨k.rst.trans h.rst, k.reqValid.trans h.reqValid, k.reqCh.trans h.reqCh, k.reqValue.trans h.reqValue,
    k.held.trans h.held, k.fe.trans h.fe, k.rx.trans h.rx, k.tx.trans h.tx⟩

theorem SameOutside.portWord {s t : State} (h : SameOutside s t) : t.portWord = s.portWord := by
  simp [State.portWord, h.reqCh, h.reqValue]

theorem SameOutside.sampled {s t : State} (h : SameOutside s t) : sampled t = sampled s := by
  simp [Machine.sampled, h.reqValid, h.portWord]

theorem drive_sameOutside (e : WireEvent) (s : State) : SameOutside s (drive e s) :=
  ⟨rfl, rfl, rfl, rfl, rfl, rfl, rfl, rfl⟩

theorem writeLine_sameOutside (s : State) : SameOutside s (writeLine s) := by
  unfold writeLine
  split
  · cases lineEvent s with
    | none => exact SameOutside.refl s
    | some e => exact drive_sameOutside e s
  · exact SameOutside.refl s

theorem clearNext_sameOutside (s : State) : SameOutside s (clearNext s) := by
  unfold clearNext
  split <;> exact ⟨rfl, rfl, rfl, rfl, rfl, rfl, rfl, rfl⟩

theorem transition_sameOutside (s : State) : SameOutside s (transition s) := by
  unfold transition
  split
  case h_1 => exact clearNext_sameOutside s
  all_goals exact ⟨rfl, rfl, rfl, rfl, rfl, rfl, rfl, rfl⟩

theorem engineAdvance_sameOutside (s : State) : SameOutside s (engineAdvance s) :=
  (writeLine_sameOutside s).trans (transition_sameOutside _)

theorem engineRun_sameOutside (n : Nat) (s : State) : SameOutside s (engineRun n s) := by
  induction n generalizing s with
  | zero => exact SameOutside.refl s
  | succ n ih => exact (engineAdvance_sameOutside s).trans (ih _)

/-- A line write changes no engine register. -/
theorem writeLine_regs (s : State) :
    (writeLine s).st = s.st ∧ (writeLine s).ch = s.ch ∧ (writeLine s).sr = s.sr ∧ (writeLine s).cnt = s.cnt ∧
      (writeLine s).dw = s.dw ∧ (writeLine s).boot = s.boot ∧ (writeLine s).clr = s.clr := by
  unfold writeLine
  split
  · cases lineEvent s <;> simp [drive]
  · simp

@[simp] theorem writeLine_st (s : State) : (writeLine s).st = s.st := (writeLine_regs s).1

/-! ### The dwell -/

/-- The ports are quiet: no reset, and the monitor holds what the ports show. -/
structure Steady (s : State) : Prop where
  rst  : s.rst = false
  held : s.held = sampled s

theorem Steady.of_sameOutside {s t : State} (h : Steady s) (k : SameOutside s t) : Steady t :=
  ⟨k.rst.trans h.rst, k.held.trans (h.held.trans k.sampled.symm)⟩

theorem Steady.not_changed {s : State} (h : Steady s) : requestChanged s = false := by
  unfold requestChanged
  rw [h.held, sampled]
  cases hv : s.reqValid <;> simp

theorem Steady.clockEdge {s : State} (h : Steady s) (p : Params) (hi : s.st ≠ .idle) :
    clockEdge p s = .next (fsmCycle p.dwell s) := by
  have ha : accepts s = false := by simp [accepts, State.reqReady, hi]
  have hs : SameOutside s (fsmCycle p.dwell s) := by
    have hd : SameOutside s (dwellCycle p.dwell s) := by
      unfold dwellCycle
      split
      · exact (writeLine_sameOutside s).trans ⟨rfl, rfl, rfl, rfl, rfl, rfl, rfl, rfl⟩
      · exact engineAdvance_sameOutside s
    unfold fsmCycle
    split
    case h_1 => exact clearNext_sameOutside s
    case h_2 h => exact absurd h hi
    all_goals exact hd
  rw [clockEdge_fsm p s h.rst h.not_changed, ha]
  have : (fsmCycle p.dwell s).setHeld (sampled s) = fsmCycle p.dwell s := by
    rw [← h.held, ← hs.held]
    rfl
  simp [this]

theorem fsmCycle_transmitting (dwell : Nat) (s : State) (h : Transmitting s) :
    fsmCycle dwell s = dwellCycle dwell s := by
  unfold fsmCycle
  split
  case h_1 hs => exact absurd hs h.2
  case h_2 hs => exact absurd hs h.1
  all_goals rfl

/-- The state after `k` cycles of a wire-event state, `0 < k < DWELL`. -/
theorem dwell_inside (p : Params) (s : State) (hs : Steady s) (ht : Transmitting s) (h0 : s.dw = 0) (k : Nat)
    (hk : k + 1 < p.dwell) : clockEdges p (k + 1) s = .next { writeLine s with dw := k + 1 } := by
  induction k with
  | zero =>
    rw [clockEdges_succ p 0 s _ (hs.clockEdge p ht.1), fsmCycle_transmitting _ _ ht]
    simp [clockEdges, dwellCycle, h0, hk]
  | succ k ih =>
    rw [clockEdges_add p (k + 1) 1 s _ (ih (by omega))]
    have ho : SameOutside s { writeLine s with dw := k + 1 } :=
      (writeLine_sameOutside s).trans ⟨rfl, rfl, rfl, rfl, rfl, rfl, rfl, rfl⟩
    have ht' : Transmitting { writeLine s with dw := k + 1 } := by
      simpa [Transmitting] using ht
    rw [clockEdges_succ p 0 _ _ ((hs.of_sameOutside ho).clockEdge p ht'.1), fsmCycle_transmitting _ _ ht']
    simp [clockEdges, dwellCycle, hk, writeLine]

/-- A wire-event state held for `DWELL` cycles is one FSM state (R96). -/
theorem dwell_whole (p : Params) (hp : 1 ≤ p.dwell) (s : State) (hs : Steady s) (ht : Transmitting s)
    (h0 : s.dw = 0) : clockEdges p p.dwell s = .next (engineAdvance s) := by
  obtain ⟨d, hd⟩ : ∃ d, p.dwell = d + 1 := ⟨p.dwell - 1, by omega⟩
  cases d with
  | zero =>
    rw [hd, clockEdges_succ p 0 s _ (hs.clockEdge p ht.1), fsmCycle_transmitting _ _ ht]
    simp [clockEdges, dwellCycle, h0, hd]
  | succ d =>
    rw [hd, clockEdges_add p (d + 1) 1 s _ (dwell_inside p s hs ht h0 d (by omega))]
    have ho : SameOutside s { writeLine s with dw := d + 1 } :=
      (writeLine_sameOutside s).trans ⟨rfl, rfl, rfl, rfl, rfl, rfl, rfl, rfl⟩
    have ht' : Transmitting { writeLine s with dw := d + 1 } := by
      simpa [Transmitting] using ht
    rw [clockEdges_succ p 0 _ _ ((hs.of_sameOutside ho).clockEdge p ht'.1), fsmCycle_transmitting _ _ ht']
    have hw : writeLine { writeLine s with dw := d + 1 } = { writeLine s with dw := d + 1 } := by
      simp [writeLine]
    have hst : (writeLine s).st = s.st := writeLine_st s
    simp only [clockEdges, dwellCycle, hd, Nat.lt_irrefl, if_false, engineAdvance, hw]
    congr 1
    unfold transition
    obtain ⟨hne, hnc⟩ := ht
    rw [← hst] at hne hnc
    generalize writeLine s = u at *
    cases hu : u.st <;> simp_all

/-! ### One transmission -/

theorem engineRun_add (m n : Nat) (s : State) : engineRun (m + n) s = engineRun n (engineRun m s) := by
  induction m generalizing s with
  | zero => simp [engineRun]
  | succ m ih => rw [Nat.add_right_comm]; exact ih _

theorem engineTrace_add (m n : Nat) (s : State) :
    engineTrace (m + n) s = engineTrace m s ++ engineTrace n (engineRun m s) := by
  induction m generalizing s with
  | zero => simp [engineTrace, engineRun]
  | succ m ih =>
    rw [Nat.add_right_comm]
    simp only [engineTrace, engineRun, ih]
    cases lineEvent s <;> simp

theorem flatMap_bitEvents_ch (c : Channel) (bits : List Bool) : ∀ e ∈ bits.flatMap (bitEvents c), e.ch = c := by
  intro e he
  simp only [List.mem_flatMap, bitEvents, List.mem_cons, List.not_mem_nil, or_false] at he
  obtain ⟨b, _, rfl | rfl | rfl⟩ := he <;> rfl

/-- Three FSM states clock out one bit, `sr[cnt-1]` (R95). -/
theorem engineRun_bit (s : State) (n : Nat) (hn : n < 16) (hst : s.st = .setData) (hdw : s.dw = 0)
    (hcnt : s.cnt = BitVec.ofNat 5 (n + 1)) :
    engineRun 3 s = { driveAll (bitEvents s.ch (s.sr.getLsbD n)) s with
        cnt := BitVec.ofNat 5 n, dw := 0, st := if n = 0 then .latHi else .setData } ∧
      engineTrace 3 s = bitEvents s.ch (s.sr.getLsbD n) := by
  have h1 : s.cnt - 1#5 = BitVec.ofNat 5 n := by
    rw [hcnt]
    apply BitVec.eq_of_toNat_eq
    simp [BitVec.toNat_sub]
    omega
  have h2 : (BitVec.ofNat 5 n).toNat = n := by simp; omega
  have h3 : (BitVec.ofNat 5 n = 0#5) ↔ n = 0 := by
    rw [← BitVec.toNat_inj, h2]; simp
  cases s
  simp only at hst hdw hcnt h1
  subst hst hdw
  constructor
  · simp [engineRun, engineAdvance, transition, writeLine, lineEvent, drive, driveAll, bitEvents, h1, h2, h3,
      State.setLines, State.setChain]
  · simp [engineTrace, engineAdvance, transition, writeLine, lineEvent, drive, bitEvents, h1, h2]

/-- From `SET_DATA` with `n` bits to go, the FSM clocks out those bits and reaches `LAT_HI` (R95). -/
theorem engineRun_bits (n : Nat) (s : State) (hn : n + 1 ≤ 16) (hst : s.st = .setData) (hdw : s.dw = 0)
    (hcnt : s.cnt = BitVec.ofNat 5 (n + 1)) :
    engineRun (3 * (n + 1)) s = { driveAll ((bitsMsbFirst (n + 1) s.sr).flatMap (bitEvents s.ch)) s with
        cnt := 0#5, dw := 0, st := .latHi } ∧
      engineTrace (3 * (n + 1)) s = (bitsMsbFirst (n + 1) s.sr).flatMap (bitEvents s.ch) := by
  induction n generalizing s with
  | zero => simpa [bitsMsbFirst] using engineRun_bit s 0 (by omega) hst hdw hcnt
  | succ n ih =>
    obtain ⟨hr, ht⟩ := engineRun_bit s (n + 1) (by omega) hst hdw hcnt
    rw [show 3 * (n + 1 + 1) = 3 + 3 * (n + 1) by omega, engineRun_add, engineTrace_add, hr, ht]
    have hd := driveAll_eq s.ch (bitEvents s.ch (s.sr.getLsbD (n + 1)))
      (by simp [bitEvents]) s
    rw [hd]
    obtain ⟨ir, it⟩ := ih { s.setLane s.ch ((bitEvents s.ch (s.sr.getLsbD (n + 1))).foldl laneStep (s.lane s.ch)) with
        cnt := BitVec.ofNat 5 (n + 1), dw := 0, st := if n + 1 = 0 then .latHi else .setData }
      (by omega) (by simp) rfl rfl
    constructor
    · rw [ir]
      rw [driveAll_eq s.ch _ (flatMap_bitEvents_ch _ _)]
      rw [show (bitsMsbFirst (n + 1 + 1) s.sr).flatMap (bitEvents s.ch)
            = bitEvents s.ch (s.sr.getLsbD (n + 1)) ++ (bitsMsbFirst (n + 1) s.sr).flatMap (bitEvents s.ch) from rfl,
        List.foldl_append]
      rw [driveAll_eq s.ch _ (by exact flatMap_bitEvents_ch _ _)]
      simp [State.setLane, State.setLines, State.setChain, State.lane]
    · rw [it]
      rfl

/-- From `LAT_LO` the FSM performs the transmission of `sr` on `ch` (R80, R95). -/
theorem engineRun_transmission (c : Channel) (v : Value) (s : State) :
    engineRun (3 * c.width + 2) (loadTransmission c v s) = runTransmission c v s ∧
      engineTrace (3 * c.width + 2) (loadTransmission c v s) = transmitEvents c v := by
  obtain ⟨n, hn⟩ : ∃ n, c.width = n + 1 := ⟨c.width - 1, by have := c.width_pos; omega⟩
  have hle := c.width_le
  generalize hs0 : loadTransmission c v s = s0
  have hs1 : engineAdvance s0 = { drive { ch := c, line := .lat, level := false } s0 with st := .setData } := by
    subst hs0
    simp [engineAdvance, transition, writeLine, lineEvent, drive, loadTransmission, State.setLines, State.setChain]
  obtain ⟨hr, ht⟩ := engineRun_bits n (engineAdvance s0) (by omega) (by rw [hs1]) (by rw [hs1, ← hs0]; rfl)
    (by rw [hs1, ← hs0, ← hn]; rfl)
  have hch : (engineAdvance s0).ch = c := by rw [hs1, ← hs0]; rfl
  have hsr : (engineAdvance s0).sr = v := by rw [hs1, ← hs0]; rfl
  rw [hch, hsr, ← hn] at hr ht
  rw [show 3 * c.width + 2 = 1 + (3 * c.width + 1) by omega, engineRun_add, engineTrace_add, engineRun_add,
    engineTrace_add]
  have e1 : engineRun 1 s0 = engineAdvance s0 := rfl
  have t1 : engineTrace 1 s0 = [{ ch := c, line := .lat, level := false }] := by
    subst hs0
    rfl
  rw [e1, t1, hr, ht]
  have hb := flatMap_bitEvents_ch c (bitsMsbFirst c.width v)
  constructor
  · rw [runTransmission, hs0, driveAll_eq c _ (transmitEvents_ch c v), driveAll_eq c _ hb, transmitEvents,
      List.foldl_cons, List.foldl_append, hs1]
    subst hs0
    simp [engineRun, engineAdvance, transition, writeLine, lineEvent, drive_eq, loadTransmission, State.setLane,
      State.setLines, State.setChain, State.lane, finishTransmission]
  · subst hs0
    rw [driveAll_eq c _ hb, hs1]
    simp [engineTrace, lineEvent, drive_eq, loadTransmission, State.setLane, State.setLines, State.setChain,
      State.lane, transmitEvents]

/-! ### Counting FSM states and clock cycles -/

/-- FSM states until the transmission in progress is over (R95). -/
def remaining (s : State) : Nat :=
  match s.st with
  | .clearNext => 0
  | .idle => 0
  | .latLo => 3 * s.cnt.toNat + 2
  | .setData => 3 * s.cnt.toNat + 1
  | .clkHi => 3 * s.cnt.toNat
  | .clkLo => 3 * s.cnt.toNat - 1
  | .latHi => 1

/-- While bits are to be clocked, `cnt` is not 0. -/
def BitsLeft (s : State) : Prop :=
  s.st = .latLo ∨ s.st = .setData ∨ s.st = .clkHi ∨ s.st = .clkLo → 1 ≤ s.cnt.toNat

theorem BitsLeft.transmitting_iff {s : State} (h : BitsLeft s) : Transmitting s ↔ 0 < remaining s := by
  unfold BitsLeft at h
  unfold Transmitting remaining
  cases hst : s.st <;> simp_all <;> omega

/-- One FSM state of a transmission is one fewer to go. -/
theorem remaining_engineAdvance {s : State} (hb : BitsLeft s) (ht : Transmitting s) :
    remaining (engineAdvance s) = remaining s - 1 ∧ BitsLeft (engineAdvance s) ∧ (engineAdvance s).dw = 0 := by
  obtain ⟨h1, _, _, h4, _⟩ := writeLine_regs s
  obtain ⟨hne, hnc⟩ := ht
  unfold engineAdvance
  generalize hu : writeLine s = u at *
  unfold BitsLeft at hb
  unfold remaining BitsLeft transition
  rw [← h1, ← h4] at hb
  rw [← h1] at hne hnc
  rw [← h1, ← h4]
  clear h1 h4 hu
  cases hst : u.st
  case clkLo =>
    have hc : 1 ≤ u.cnt.toNat := hb (by simp [hst])
    have hs : (u.cnt - 1#5).toNat = u.cnt.toNat - 1 := by
      rw [BitVec.toNat_sub_of_le (by simpa [BitVec.le_def] using hc)]
      rfl
    by_cases hz : u.cnt - 1#5 = 0#5
    · have : u.cnt.toNat - 1 = 0 := by rw [← hs, hz]; rfl
      simp [hz]
      omega
    · have : u.cnt.toNat - 1 ≠ 0 := by
        rw [← hs]
        intro h
        exact hz (BitVec.eq_of_toNat_eq (by simpa using h))
      simp [hz, hs]
      omega
  case latHi =>
    simp [afterLatHi]
    cases u.boot <;> simp
  all_goals simp_all

theorem remaining_load (c : Channel) (v : Value) (s : State) :
    remaining (loadTransmission c v s) = 3 * c.width + 2 ∧ BitsLeft (loadTransmission c v s) := by
  have := c.width_pos
  simp only [remaining, BitsLeft, loadTransmission]
  rw [c.width_toNat]
  exact ⟨rfl, fun _ => this⟩

/-- At clock level, `m` FSM states of a transmission take `m * DWELL` cycles, in none of which the block is idle
(R96, R98). -/
theorem clockEdges_engineRun (p : Params) (hp : 1 ≤ p.dwell) (m : Nat) (s : State) (hs : Steady s) (h0 : s.dw = 0)
    (hb : BitsLeft s) (hm : m ≤ remaining s) :
    clockEdges p (m * p.dwell) s = .next (engineRun m s) ∧
      ∀ n, n < m * p.dwell → ∃ u, clockEdges p n s = .next u ∧ u.st ≠ .idle := by
  induction m generalizing s with
  | zero => simp [clockEdges, engineRun]
  | succ m ih =>
    have ht : Transmitting s := hb.transmitting_iff.2 (by omega)
    obtain ⟨hr, hb', h0'⟩ := remaining_engineAdvance hb ht
    have hs' := hs.of_sameOutside (engineAdvance_sameOutside s)
    have hd := dwell_whole p hp s hs ht h0
    obtain ⟨ih1, ih2⟩ := ih (engineAdvance s) hs' h0' hb' (by omega)
    have hmul : (m + 1) * p.dwell = p.dwell + m * p.dwell := by
      rw [Nat.add_mul, Nat.one_mul, Nat.add_comm]
    refine ⟨?_, fun n hn => ?_⟩
    · rw [hmul, clockEdges_add p _ _ _ _ hd, ih1]
      rfl
    · by_cases hlt : n < p.dwell
      · cases n with
        | zero => exact ⟨s, rfl, ht.1⟩
        | succ n => exact ⟨_, dwell_inside p s hs ht h0 n hlt, by simpa using ht.1⟩
      · obtain ⟨u, hu, hi⟩ := ih2 (n - p.dwell) (by omega)
        refine ⟨u, ?_, hi⟩
        rw [show n = p.dwell + (n - p.dwell) by omega, clockEdges_add p _ _ _ _ hd, hu]

/-- At clock level, a loaded transmission reaches the state of `runTransmission` in `(3W + 2) * DWELL` cycles (R98). -/
theorem clockEdges_transmission (p : Params) (hp : 1 ≤ p.dwell) (c : Channel) (v : Value) (s : State)
    (hs : Steady (loadTransmission c v s)) :
    clockEdges p ((3 * c.width + 2) * p.dwell) (loadTransmission c v s) = .next (runTransmission c v s) ∧
      ∀ n, n < (3 * c.width + 2) * p.dwell →
        ∃ u, clockEdges p n (loadTransmission c v s) = .next u ∧ u.st ≠ .idle := by
  obtain ⟨hm, hb⟩ := remaining_load c v s
  have h := clockEdges_engineRun p hp (3 * c.width + 2) _ hs rfl hb (by omega)
  rwa [(engineRun_transmission c v s).1] at h

/-! ### The startup clear -/

theorem engineAdvance_clearNext (s : State) (hst : s.st = .clearNext) : engineAdvance s = clearNext s := by
  unfold engineAdvance writeLine lineEvent transition
  simp [hst]

/-- A visit of `CLEAR_NEXT` with `clr` at channel `c` loads its zero transmission (R95, R191). -/
theorem clearNext_load (c : Channel) (s : State) (hclr : s.clr = BitVec.ofNat 3 c.index) :
    clearNext s = loadTransmission c 0#16 { s with clr := BitVec.ofNat 3 (c.index + 1) } := by
  unfold clearNext
  rw [hclr]
  cases c <;> rfl

/-- One round of the startup clear, at wire-event level (R191). -/
theorem engineRun_clear_one (c : Channel) (s : State) (hst : s.st = .clearNext)
    (hclr : s.clr = BitVec.ofNat 3 c.index) :
    engineRun (1 + (3 * c.width + 2)) s = runTransmission c 0#16 { s with clr := BitVec.ofNat 3 (c.index + 1) } ∧
      engineTrace (1 + (3 * c.width + 2)) s = transmitEvents c 0#16 := by
  have h1 : engineRun 1 s = loadTransmission c 0#16 { s with clr := BitVec.ofNat 3 (c.index + 1) } := by
    rw [← clearNext_load c s hclr, ← engineAdvance_clearNext s hst]
    rfl
  have t1 : engineTrace 1 s = [] := by
    simp [engineTrace, lineEvent, hst]
  rw [engineRun_add, engineTrace_add, h1, t1]
  exact engineRun_transmission c 0#16 _

/-- One round of the startup clear, at clock level: one cycle, then the transmission (R96, R202). -/
theorem clockEdges_clear_one (p : Params) (hp : 1 ≤ p.dwell) (c : Channel) (s : State) (hs : Steady s)
    (hst : s.st = .clearNext) (hclr : s.clr = BitVec.ofNat 3 c.index) :
    clockEdges p (1 + (3 * c.width + 2) * p.dwell) s
        = .next (runTransmission c 0#16 { s with clr := BitVec.ofNat 3 (c.index + 1) }) ∧
      ∀ n, n < 1 + (3 * c.width + 2) * p.dwell → ∃ u, clockEdges p n s = .next u ∧ u.st ≠ .idle := by
  have hne : s.st ≠ .idle := by simp [hst]
  have h1 : clockEdges p 1 s = .next (loadTransmission c 0#16 { s with clr := BitVec.ofNat 3 (c.index + 1) }) := by
    rw [clockEdges_succ p 0 s _ (hs.clockEdge p hne)]
    simp [clockEdges, fsmCycle, hst, clearNext_load c s hclr]
  have ho : SameOutside s (loadTransmission c 0#16 { s with clr := BitVec.ofNat 3 (c.index + 1) }) :=
    ⟨rfl, rfl, rfl, rfl, rfl, rfl, rfl, rfl⟩
  obtain ⟨hr, hi⟩ := clockEdges_transmission p hp c 0#16 _ (hs.of_sameOutside ho)
  refine ⟨by rw [clockEdges_add p _ _ _ _ h1, hr], fun n hn => ?_⟩
  cases n with
  | zero => exact ⟨s, rfl, hne⟩
  | succ n =>
    obtain ⟨u, hu, hi⟩ := hi n (by omega)
    exact ⟨u, by rw [Nat.add_comm, clockEdges_add p _ _ _ _ h1, hu], hi⟩

end Sys2Proof.Machine
end

