-- ==== Sys2Proof/Laws/Step.lean ====
section
/-! SUPPORT. What a step can be (logs 1 and 2). -/

namespace Sys2Proof.Machine

theorem accepts_iff (s : State) : accepts s = true ↔ s.st = .idle ∧ s.rst = false ∧ s.reqValid = true := by
  simp [accepts, State.reqReady, and_assoc]

theorem released_exec (w : ReqWord) (s : State) :
    released (exec (decodeWord w) s)
      = .next (releaseRequest (runTransmission (Channel.ofCode (chField w)) (valueField w) s)) := by
  rw [exec_eq, decodeWord_eq, Instr.transmit_channel, Instr.transmit_value]
  rfl

/-- The four things a step can be. -/
theorem stepWith_cases (p : Params) (s : State) :
    (s.rst = true ∧ stepWith p s = .next (resetEdge s)) ∨
    (s.rst = false ∧ requestChanged s = true ∧ stepWith p s = .fault .requestChanged) ∨
    (s.rst = false ∧ requestChanged s = false ∧ s.st = .idle ∧ s.reqValid = true ∧
      stepWith p s = .next (releaseRequest (runTransmission (Channel.ofCode s.reqCh) s.reqValue s))) ∨
    (s.rst = false ∧ requestChanged s = false ∧ accepts s = false ∧
      stepWith p s = .next ((agentMove p.hexOverflow s).setHeld (sampled s))) := by
  unfold stepWith
  cases hr : s.rst
  · cases hc : requestChanged s
    · cases ha : accepts s
      · simp
      · obtain ⟨h1, _, h3⟩ := (accepts_iff s).1 ha
        rw [released_exec]
        simp [State.portWord, chField_append, valueField_append, h1, h3]
    · simp
  · simp

/-- What a move of an agent can be. -/
theorem agentMove_cases (hex : HexOverflow) (s : State) :
    (s.fe = .startup ∧ agentMove hex s = startupOutput s) ∨
    (s.fe ≠ .startup ∧ s.st = .idle ∧ agentMove hex s = frontEndMove hex s) ∨
    (s.fe ≠ .startup ∧ s.st ≠ .idle ∧ agentMove hex s = engineAdvance s) := by
  unfold agentMove
  by_cases h1 : s.fe = .startup
  · simp [h1]
  · by_cases h2 : s.st = .idle <;> simp [h1, h2]

/-- A front-end move touches neither the block nor the chains (R173, R137). -/
structure SameBlock (s t : State) : Prop where
  lines  : t.lines = s.lines
  st     : t.st = s.st
  ch     : t.ch = s.ch
  sr     : t.sr = s.sr
  cnt    : t.cnt = s.cnt
  dw     : t.dw = s.dw
  boot   : t.boot = s.boot
  clr    : t.clr = s.clr
  rst    : t.rst = s.rst
  chains : t.chains = s.chains

theorem SameBlock.refl (s : State) : SameBlock s s := ⟨rfl, rfl, rfl, rfl, rfl, rfl, rfl, rfl, rfl, rfl⟩

theorem startupOutput_sameBlock (s : State) : SameBlock s (startupOutput s) :=
  ⟨rfl, rfl, rfl, rfl, rfl, rfl, rfl, rfl, rfl, rfl⟩

theorem dispatchLine_sameBlock (hex : HexOverflow) (line : Text) (s : State) :
    SameBlock s (dispatchLine hex line s) := by
  unfold dispatchLine
  split <;> exact ⟨rfl, rfl, rfl, rfl, rfl, rfl, rfl, rfl, rfl, rfl⟩

theorem pollLine_sameBlock (s : State) : SameBlock s (pollLine s) := by
  unfold pollLine
  split
  · exact SameBlock.refl s
  · split <;> exact ⟨rfl, rfl, rfl, rfl, rfl, rfl, rfl, rfl, rfl, rfl⟩

theorem frontEndMove_sameBlock (hex : HexOverflow) (s : State) : SameBlock s (frontEndMove hex s) := by
  unfold frontEndMove
  split
  case h_3 => exact pollLine_sameBlock s
  case h_4 => exact dispatchLine_sameBlock hex _ s
  all_goals (try split) <;> exact ⟨rfl, rfl, rfl, rfl, rfl, rfl, rfl, rfl, rfl, rfl⟩

theorem releaseRequest_sameBlock (s : State) : SameBlock s (releaseRequest s) := by
  unfold releaseRequest
  split <;> exact ⟨rfl, rfl, rfl, rfl, rfl, rfl, rfl, rfl, rfl, rfl⟩

/-- The requester's side of an acceptance (R199, R135). -/
theorem releaseRequest_ports (s : State) :
    (releaseRequest s).reqValid = false ∧ (releaseRequest s).held = none ∧
      (releaseRequest s).reqCh = s.reqCh ∧ (releaseRequest s).reqValue = s.reqValue ∧
      (releaseRequest s).rx = s.rx ∧ (releaseRequest s).tx = s.tx := by
  unfold releaseRequest
  split <;> exact ⟨rfl, rfl, rfl, rfl, rfl, rfl⟩

/-- A reset edge changes no chain and neither the ports' word nor the serial line (R181, R190). -/
theorem resetEdge_chains (s : State) :
    (resetEdge s).chains = s.chains ∧ (resetEdge s).rst = s.rst ∧ (resetEdge s).reqCh = s.reqCh ∧
      (resetEdge s).reqValue = s.reqValue ∧ (resetEdge s).rx = s.rx ∧ (resetEdge s).tx = s.tx := by
  unfold resetEdge restartFrontEnd
  split <;> exact ⟨rfl, rfl, rfl, rfl, rfl, rfl⟩

/-- The registers after a reset edge (R22, R190). -/
theorem resetEdge_regs (s : State) :
    (resetEdge s).lines = PerChannel.tabulate (fun _ => { data := false, clk := false, lat := false }) ∧
      (resetEdge s).st = .clearNext ∧ (resetEdge s).ch = .A ∧ (resetEdge s).sr = 0#16 ∧ (resetEdge s).cnt = 0#5 ∧
      (resetEdge s).dw = 0 ∧ (resetEdge s).boot = true ∧ (resetEdge s).clr = 0#3 ∧ (resetEdge s).held = none ∧
      (resetEdge s).fe = .startup := by
  unfold resetEdge restartFrontEnd
  split <;> exact ⟨rfl, rfl, rfl, rfl, rfl, rfl, rfl, rfl, rfl, rfl⟩

end Sys2Proof.Machine
end

