-- ==== Sys2Proof/Laws/Frontend.lean ====
section
/-! SUPPORT. The front-end's text operations: framing (R122), keyword match (R123), trimming (R126), digits (R128, R131,
R132), and the step that moves it. -/

namespace Sys2Proof.Machine

open Sys2Proof.Safety

/-! ### Framing -/

theorem readLine_none (t : Text) (h : '\n' ∉ t) : readLine t = none := by
  induction t with
  | nil => rfl
  | cons x xs ih =>
    simp at h
    simp [readLine, Ne.symm h.1, ih h.2]

theorem readLine_some (l rest : Text) (h : '\n' ∉ l) :
    readLine (l ++ '\n' :: rest) = some (l ++ ['\n'], rest) := by
  induction l with
  | nil => simp [readLine]
  | cons x xs ih =>
    simp at h
    simp [readLine, Ne.symm h.1, ih h.2]

theorem stripTerminator_lf (l : Text) (h : l.getLast? ≠ some '\r') : stripTerminator (l ++ ['\n']) = l := by
  simp [stripTerminator, dropFinal, h]

theorem stripTerminator_crlf (l : Text) : stripTerminator (l ++ ['\r'] ++ ['\n']) = l := by
  simp [stripTerminator, dropFinal]

/-! ### Keywords -/

theorem afterKeyword_iff (k line token : Text) :
    afterKeyword k line = some token ↔ line = k ++ ' ' :: token := by
  unfold afterKeyword
  constructor
  · intro h
    split at h
    next hp =>
      cases h
      obtain ⟨r, hr⟩ := List.isPrefixOf_iff_prefix.1 hp
      rw [← hr, show k.length + 1 = (k ++ [' ']).length by simp, List.drop_left]
      simp
    next => cases h
  · rintro rfl
    have hp : (k ++ [' ']).isPrefixOf (k ++ ' ' :: token) = true :=
      List.isPrefixOf_iff_prefix.2 ⟨token, by simp⟩
    rw [if_pos hp, show k ++ ' ' :: token = (k ++ [' ']) ++ token by simp,
      show k.length + 1 = (k ++ [' ']).length by simp, List.drop_left]

/-- No keyword followed by a space is a prefix of another (R123). -/
theorem keyword_space_inj (g h : Channel) (s t : Text) (e : g.keyword ++ ' ' :: s = h.keyword ++ ' ' :: t) :
    g = h ∧ s = t := by
  cases g <;> cases h <;> simp_all [Channel.keyword]

/-! ### Trimming -/

theorem dropWhile_blank (pre t : Text) (hp : Blank pre) (hs : BareStart t) : (pre ++ t).dropWhile isSpace = t := by
  induction pre with
  | nil =>
    cases t with
    | nil => rfl
    | cons x xs =>
      have := hs x rfl
      simp [this]
  | cons x xs ih =>
    have h1 := hp x (by simp)
    have h2 : Blank xs := fun y hy => hp y (by simp [hy])
    simpa [h1] using ih h2

/-! ### Digits -/

theorem positional_ofDigits (b : Nat) (ds : List Nat) : positional b ds = Nat.ofDigits b ds.reverse := by
  have : ∀ a, ds.foldl (fun n d => n * b + d) a = a * b ^ ds.length + Nat.ofDigits b ds.reverse := by
    induction ds with
    | nil => intro a; simp
    | cons d ds ih =>
      intro a
      simp only [List.foldl_cons, ih, List.reverse_cons, Nat.ofDigits_append, List.length_reverse, List.length_cons]
      simp [pow_succ]; ring
  simpa [positional] using this 0

theorem digitsOf_spells (digit : Char → Option Nat) (tables : List Text)
    (h : ∀ x d, (∃ t ∈ tables, t[d]? = some x) → digit x = some d) (r : Text) (ds : List Nat)
    (hr : Spells tables r ds) : digitsOf digit r = some ds := by
  induction r generalizing ds with
  | nil => cases ds with
    | nil => rfl
    | cons => exact hr.elim
  | cons x xs ih => cases ds with
    | nil => exact hr.elim
    | cons d ds => simp [digitsOf, h x d hr.1, ih ds hr.2]

theorem digitsOf_bad (digit : Char → Option Nat) (r : Text) (h : ∃ x ∈ r, digit x = none) :
    digitsOf digit r = none := by
  induction r with
  | nil => simp at h
  | cons x xs ih =>
    obtain ⟨y, hy, hd⟩ := h
    simp only [digitsOf]
    rcases List.mem_cons.1 hy with rfl | hy
    · simp [hd]
    · rw [ih ⟨y, hy, hd⟩]; cases digit x <;> rfl

theorem spells_noSpace (tables : List Text) (hb : ∀ t ∈ tables, ∀ x ∈ t, isSpace x = false) (r : Text)
    (ds : List Nat) (h : Spells tables r ds) : ∀ x ∈ r, isSpace x = false := by
  induction r generalizing ds with
  | nil => simp
  | cons y ys ih => cases ds with
    | nil => exact h.elim
    | cons d ds =>
      intro x hx
      rcases List.mem_cons.1 hx with rfl | hx
      · obtain ⟨t, ht, hx⟩ := h.1
        exact hb t ht _ (List.mem_of_getElem? hx)
      · exact ih ds h.2 x hx

/-! ### The step -/

/-- With the block idle and nothing presented, a step is a move of the front-end (log 2). -/
theorem stepWith_frontEnd (p : Params) (s : State) (h1 : s.rst = false) (h2 : s.st = .idle)
    (h3 : s.reqValid = false) (h4 : s.fe ≠ .startup) :
    stepWith p s = .next ((frontEndMove p.hexOverflow s).setHeld none) := by
  have hc : requestChanged s = false := by unfold requestChanged; cases s.held <;> simp [h3]
  simp [stepWith, h1, hc, accepts, h3, agentMove, h4, h2, sampled]

end Sys2Proof.Machine
end

