-- ==== Sys2Proof/Laws/PerInstr.lean ====
section
/-! SUPPORT. Statements made per instruction: the encoding puts each field in its place (R60 to R62). -/

namespace Sys2Proof.Laws.Fields

/-- The word of an instruction holds its channel's code in `CH` and its whole value in `VALUE` (R60, R61, R62). -/
def Statement (i : Instr) : Prop := chField (encode i) = i.channel.code ∧ valueField (encode i) = i.value

theorem txA (value : Value) : Statement (.txA value) := ⟨chField_append _ _, valueField_append _ _⟩

theorem txB (value : Value) : Statement (.txB value) := ⟨chField_append _ _, valueField_append _ _⟩

theorem txC (value : Value) : Statement (.txC value) := ⟨chField_append _ _, valueField_append _ _⟩

theorem txD (value : Value) : Statement (.txD value) := ⟨chField_append _ _, valueField_append _ _⟩

end Sys2Proof.Laws.Fields
end

