-- ==== Sys2Proof/Tests/Slice0.lean ====
section
/-! SUPPORT. Tests. Expected results are taken from spec/ (the file and section named at each test), never from the model;
then one witness for each statement that has hypotheses. -/

namespace Sys2Proof.Tests

open Sys2Proof.Machine Sys2Proof.Safety

/-! ### Helpers -/

/-- A machine with two cycles a wire event, which meets its electrical minimums. -/
def params2 : Params :=
  { dwell := 2, chainLen := PerChannel.tabulate Channel.width, hexOverflow := .truncate,
    tClk := 10, tSu := 5, tHd := 5, tCkh := 20, tCkl := 20, tLatw := 20, tCl := 7 }

/-- The same with one cycle a wire event (95_test_vectors.md: `DWELL = 1`). -/
def params1 : Params := { params2 with dwell := 1 }

/-- In reset's first free cycle (R191), the chains at power-on. -/
def fresh : State := State.resetWith params2

/-- After the startup clear, idle. -/
def ready : State := afterClear fresh

/-- A request word presented to the ready machine. -/
def requested (w : ReqWord) : State := ready.present (chField w) (valueField w)

/-- TX_D 0xAB after `n` of its 26 wire events, the request lowered. -/
def during (n : Nat) : State := engineRun n (loadTransmission .D 0x00AB#16 ready)

/-- The number a chain holds, stage 0 the lowest bit. -/
def chainNat (bits : List Bool) : Nat := Nat.ofDigits 2 (bits.map Bool.toNat)

/-- `len` stages that hold a number. -/
def stagesOf (len n : Nat) : List Bool := (List.range len).map n.testBit

/-- The next state, or the state given where the outcome is none. -/
def nextOr (d : State) : Host.Outcome State Fault Refusal → State
  | .next t => t
  | .fault _ => d
  | .refused _ => d

/-- The outputs of channel `c` after an instruction on the ready machine. -/
def outputsAfter (i : Instr) (c : Channel) : Nat := chainNat ((nextOr ready (exec i ready)).chains.get c).outs

/-! ### Well-formedness: an ill-formed term for each check -/

/-- R60: a request word has bits 17 to 0. -/
theorem test_wordFits : requestWordFits 0x3FFFF = true ∧ requestWordFits 0x40000 = false := by decide

/-- R6: `DWELL` is at least 1. -/
theorem test_dwellZeroRefused : params2.wf = true ∧ ({ params2 with dwell := 0 } : Params).wf = false := by decide

/-- R201: `DWELL * t_clk` at least each minimum; here a clock-low time of 21 against 20. -/
theorem test_minimumsRefused :
    params2.meetsMinimums = true ∧ ({ params2 with tCkl := 21 } : Params).meetsMinimums = false := by decide

/-- R63: no request is illegal. -/
theorem test_everyInstructionWellFormed :
    [Instr.txA 0xFFFF#16, .txB 0#16, .txC 0x8001#16, .txD 0xFF00#16].all Instr.wf = true := by decide

/-- Log 13: a byte sequence that is no request word is refused by name. -/
theorem test_bytesRefused :
    (match decodeBytes [0xAB#8, 0x00#8] with | .error .truncated => true | _ => false) = true ∧
    (match decodeBytes [0xAB#8, 0x00#8, 0x03#8, 0x00#8] with | .error .overlong => true | _ => false) = true ∧
    (match decodeBytes [0xAB#8, 0x00#8, 0x07#8] with | .error .strayBits => true | _ => false) = true := by decide

/-! ### Decoding: words written out from 30_encoding.md (`00vvv...`, `01vvv...`, `10vvv...`, `11xxx...vvv`) -/

theorem test_decode_txA : decodeWord 0b00_0001001000110100#18 = .txA 0x1234#16 := by decide
theorem test_decode_txB : decodeWord 0b01_0000000011111111#18 = .txB 0x00FF#16 := by decide
theorem test_decode_txC : decodeWord 0b10_1000000000000001#18 = .txC 0x8001#16 := by decide
theorem test_decode_txD : decodeWord 0b11_0000000110101011#18 = .txD 0x01AB#16 := by decide

/-- The request words of 95_test_vectors.md 1.2, through the table's numbering. -/
theorem test_decodeTableWord :
    [0x0FFFF, 0x100FF, 0x2AAAA, 0x300AB].map (decodeTableWord 24) =
      [some (.txA 0xFFFF#16), some (.txB 0x00FF#16), some (.txC 0xAAAA#16), some (.txD 0x00AB#16)] ∧
    decodeTableWord 24 0x40000 = none := by decide

/-! ### Instructions -/

/-- 95_test_vectors.md 2.1. -/
theorem test_txA : [0xFFFF#16, 0x0000#16, 0x1234#16].map (fun v => outputsAfter (.txA v) .A) =
    [0xFFFF, 0x0000, 0x1234] := by decide
theorem test_txB : [0x00FF#16, 0x0F0F#16].map (fun v => outputsAfter (.txB v) .B) = [0x00FF, 0x0F0F] := by decide
theorem test_txC : [0xAAAA#16, 0x8001#16].map (fun v => outputsAfter (.txC v) .C) = [0xAAAA, 0x8001] := by decide
theorem test_txD : [0x00AB#16, 0x0080#16, 0x0001#16, 0x005A#16, 0xFFAB#16].map (fun v => outputsAfter (.txD v) .D) =
    [0xAB, 0x80, 0x01, 0x5A, 0xAB] := by decide

/-- 95_test_vectors.md 2.1, corner cases: `CHAIN_LEN[A] = 24` with `S[A] = 0xABCDEF`, and `CHAIN_LEN[A] = 8`. -/
theorem test_txA_otherLengths :
    [stagesOf 24 0xABCDEF, stagesOf 8 0xFF].map (fun x =>
      (fun k => (chainNat k.stages, chainNat k.outs)) ((nextOr ready (exec (.txA 0x1234#16)
        (ready.setChain .A { stages := x, outs := x }))).chains.get .A)) =
      [(0xEF1234, 0xEF1234), (0x34, 0x34)] := by decide

/-- 95_test_vectors.md 2.1, the wire trace of TX_D 0xAB: DATA, CLK, LAT, S, Q after each event. -/
theorem test_txD_trace :
    (List.range 26).map (fun n =>
      (fun (t : State) => (t.sdata .D, t.sclk .D, t.slatch .D, chainNat (t.chains.get .D).stages,
        chainNat (t.chains.get .D).outs)) (driveAll ((transmitEvents .D 0x00AB#16).take (n + 1)) ready)) =
    [ (false, false, false, 0b00000000, 0), (true,  false, false, 0b00000000, 0), (true,  true,  false, 0b00000001, 0),
      (true,  false, false, 0b00000001, 0), (false, false, false, 0b00000001, 0), (false, true,  false, 0b00000010, 0),
      (false, false, false, 0b00000010, 0), (true,  false, false, 0b00000010, 0), (true,  true,  false, 0b00000101, 0),
      (true,  false, false, 0b00000101, 0), (false, false, false, 0b00000101, 0), (false, true,  false, 0b00001010, 0),
      (false, false, false, 0b00001010, 0), (true,  false, false, 0b00001010, 0), (true,  true,  false, 0b00010101, 0) ] ++
    [ (true,  false, false, 0b00010101, 0), (false, false, false, 0b00010101, 0), (false, true,  false, 0b00101010, 0),
      (false, false, false, 0b00101010, 0), (true,  false, false, 0b00101010, 0), (true,  true,  false, 0b01010101, 0),
      (true,  false, false, 0b01010101, 0), (true,  false, false, 0b01010101, 0), (true,  true,  false, 0b10101011, 0),
      (true,  false, false, 0b10101011, 0), (true,  false, true,  0b10101011, 0b10101011) ] := by decide

/-- 40_transmit.md R90, R93: 50 events and 26. -/
theorem test_eventCounts :
    (transmitEvents .A 0x1234#16).length = 50 ∧ (transmitEvents .D 0x00AB#16).length = 26 := by decide

/-! ### The step, the FSM, reset -/

/-- Log 14: the word placed after reset is the first instruction the step runs (95_test_vectors.md P1). -/
theorem test_firstStep_lines :
    (fun t : State => (chainNat (t.chains.get .D).outs, t.sdata .D, t.sclk .D, t.slatch .D))
      (nextOr ready (step (State.reset.withFetchWord 24 0x300AB))) = (0xAB, true, false, true) := by decide
theorem test_firstStep_registers :
    (fun t : State => (t.ch, t.sr, t.cnt, t.st)) (nextOr ready (step (State.reset.withFetchWord 24 0x300AB))) =
      (Channel.D, 0x00AB#16, 0#5, EngineState.idle) := by decide

/-- 95_test_vectors.md 2.1, cycle count at `DWELL = 1`: TX_D accepted in cycle t is back in `IDLE` at t + 27, not before. -/
theorem test_txD_cycles :
    (nextOr ready (clockEdges params1 26 (releaseRequest (nextOr ready (clockEdge params1 (requested 0x300AB#18)))))).st
      = .idle ∧
    (nextOr ready (clockEdges params1 25 (releaseRequest (nextOr ready (clockEdge params1 (requested 0x300AB#18)))))).st
      = .latHi := by decide

/-- R22, first column. -/
theorem test_reset :
    State.reset.st = .clearNext ∧ State.reset.boot = true ∧ State.reset.clr = 0#3 ∧ State.reset.reqReady = false ∧
    State.reset.busy = true ∧ ∀ c ∈ Channel.all, State.reset.slatch c = false := by decide

/-- R190: reset in the middle of a transmission. -/
theorem test_resetEdge :
    (fun t : State => (t.st, t.sr, t.boot, t.slatch .D, t.sdata .D, t.chains == (during 4).chains))
      (nextOr ready (clockEdge params2 { during 4 with rst := true })) =
      (.clearNext, 0#16, true, false, false, true) := by decide

/-- R199, I10: the word on the ports replaced before it was accepted. -/
theorem test_requesterFault :
    (match stepWith params2 { (requested 0x300AB#18) with held := some 0x300AA#18 } with
      | .fault .requestChanged => true | _ => false) = true ∧
    (match clockEdge params2 { (during 4) with reqValid := true, held := some 0x300AA#18 } with
      | .fault .requestChanged => true | _ => false) = true := by decide

/-! ### The front-end -/

/-- The outcome of a token as a number: the value, or 1000000 and the failure code. -/
def parsed (hex : HexOverflow) (w : Nat) (token : String) : Nat :=
  match parse hex w token.toList with
  | .ok n => n
  | .error f => 1000000 + failureCode (failureOfParse .A f)

/-- 95_test_vectors.md 2.2, decimal tokens. -/
theorem test_parse_decimal8 :
    ["0", "255", "256", "007", "", "   ", " 42 "].map (parsed .truncate 8) =
      [0, 255, 1000002, 7, 1000001, 1000001, 42] := by decide
theorem test_parse_decimal16 :
    ["65535", "65536", "99999999999999999999", "010", "-1", "+1", "1 2", "12a", "0X10", "0B1"].map
      (parsed .truncate 16) =
      [65535, 1000002, 1000002, 10, 1000001, 1000001, 1000001, 1000001, 1000001, 1000001] := by decide

/-- 95_test_vectors.md 2.2, hexadecimal tokens. -/
theorem test_parse_hex :
    ["\t0x1F\r", "0xff", "0xAB", "0x1FF"].map (parsed .truncate 8) = [31, 255, 171, 255] ∧
    ["0x", "0xG1", "0x0000FFFF", "0x10000", "0x1FFFF"].map (parsed .truncate 16) =
      [1000001, 1000001, 65535, 0, 65535] ∧
    parsed .reject 8 "0x1FF" = 1000002 ∧ parsed .reject 16 "0x10000" = 1000002 := by decide

/-- 95_test_vectors.md 2.2, binary tokens. -/
theorem test_parse_binary :
    ["0b", "0b0", "0b11111111", "0b111111111", "0b000000001", "0b102", "0b1111111112", "0b 101"].map
      (parsed .truncate 8) = [1000001, 0, 255, 1000003, 1000003, 1000001, 1000003, 1000001] ∧
    ["0b1010101010101010", "0b10101010101010101"].map (parsed .truncate 16) = [43690, 1000003] := by decide

/-- The request word of a line as received, or the failure code. -/
def wordOfLine (line : String) : Nat :=
  match dispatch .truncate (stripTerminator line.toList) with
  | .ok (g, n) => BitVec.toNat (g.code ++ zext16 n : ReqWord)
  | .error f => failureCode f

/-- 95_test_vectors.md 2.3. -/
theorem test_dispatch_requests :
    ["muxTE 5\n", "muxTE  5\n", "muxBE12 0xFFFF\r\n", "ENABLE 65535\n", "muxBE34 0b1\n"].map wordOfLine =
      [0x30005, 0x30005, 0x0FFFF, 0x2FFFF, 0x10001] := by decide
theorem test_dispatch_failures :
    ["muxTE5\n", "muxte 5\n", "MUXTE 5\n", "muxTE\n", "ENABLE\t5\n", "muxTE \n", "   \n", " muxTE 5\n",
      "ENABLE 65536\n"].map wordOfLine = [4, 4, 4, 4, 4, 1, 4, 4, 2] := by decide

/-- 95_test_vectors.md 2.3: an empty line stays Idle with no output. -/
theorem test_emptyLine :
    (fun t : State => (t.fe, t.rx, t.tx)) (nextOr fresh (stepWith params2 { ready with rx := "\r\nx".toList })) =
      (.idle, ['x'], []) := by decide

/-- 95_test_vectors.md 2.4. -/
theorem test_decompose :
    [0xFFFF#16, 0x00FF#16, 0x1234#16, 0xABCD#16, 0x0F0F#16].map (fun v => (decompose v 4).map BitVec.toNat) =
      [[15, 15, 15, 15], [15, 15, 0, 0], [4, 3, 2, 1], [13, 12, 11, 10], [15, 0, 15, 0]] ∧
    [0x00AB#16, 0x00F0#16].map (fun v => (decompose v 2).map BitVec.toNat) = [[11, 10], [0, 15]] := by decide

/-- 95_test_vectors.md P1: the report of `muxTE 0xAB`. -/
theorem test_report :
    reportOf .D 0xAB =
      { group := .D, decimal := [1, 7, 1], fields := [11#4, 10#4], binary := [1, 0, 1, 0, 1, 0, 1, 1],
        hex := [10, 11] } := by decide

/-- 95_test_vectors.md 2.5. -/
theorem test_diagnostics :
    failureFragment (.binlen .C 16) = "Binary string too long (max 16 bits)".toList ∧
    failureFragment (.binlen .D 8) = "Binary string too long (max 8 bits)".toList ∧
    failureFragment .unknown = "Unknown command prefix".toList := by decide

/-! ### Invariants on concrete states -/

theorem ready_engine : EngineInv ready := by
  constructor
  case lengths => intro c; cases c <;> decide
  case booted => decide
  case clrBound => decide
  case idle => decide
  case clearing => decide
  case clears => intro h; exact absurd h (by decide)
  case count => exact rfl
  case noDwell => intro _; rfl
  case clkHigh => intro c; simp [PulseHigh]; cases c <;> decide
  case latOpen => intro h; simp [WindowOpen] at h; revert h; decide
  case latClosed => decide
  case latIdle => intro c _; simp [Cleared]; cases c <;> decide
  case committed => intro c _ _; cases c <;> decide

theorem during_active : Active (during 4) .D := ⟨⟨by decide, by decide⟩, rfl⟩

/-- In the middle of TX_D 0xAB: one bit sent, the second about to be set. -/
theorem during_engine : EngineInv (during 4) := by
  constructor
  case lengths => intro c; cases c <;> decide
  case booted => decide
  case clrBound => decide
  case idle => decide
  case clearing => decide
  case clears => intro h; exact absurd h (by decide)
  case count => exact ⟨by decide, by decide⟩
  case noDwell => intro _; rfl
  case clkHigh => intro c; simp [PulseHigh]; cases c <;> decide
  case latOpen => intro _; decide
  case latClosed => decide
  case latIdle =>
    intro c h
    simp only [Cleared]
    cases c
    case D => exact absurd during_active h
    all_goals decide
  case committed =>
    intro c h _
    cases c
    case D => exact absurd during_active h
    all_goals decide

/-- The invariant of the block does not speak of the ports. -/
theorem requested_engine (w : ReqWord) : EngineInv (requested w) :=
  { lengths := ready_engine.lengths, booted := ready_engine.booted, clrBound := ready_engine.clrBound,
    idle := ready_engine.idle, clearing := ready_engine.clearing, clears := ready_engine.clears,
    count := ready_engine.count, noDwell := ready_engine.noDwell, clkHigh := ready_engine.clkHigh,
    latOpen := ready_engine.latOpen, latClosed := ready_engine.latClosed, latIdle := ready_engine.latIdle,
    committed := ready_engine.committed }

theorem inReset_fresh : InReset fresh := ⟨fun c => by cases c <;> rfl, rfl, rfl, rfl, rfl, rfl, rfl, rfl⟩

/-- A front-end that holds the request of `muxTE 0xAB` on the ports. -/
def asserting : State := (requested 0x300AB#18).setFe (.requesting .D)

theorem asserting_inv : Inv asserting where
  engine :=
    { lengths := ready_engine.lengths, booted := ready_engine.booted, clrBound := ready_engine.clrBound,
      idle := ready_engine.idle, clearing := ready_engine.clearing, clears := ready_engine.clears,
      count := ready_engine.count, noDwell := ready_engine.noDwell, clkHigh := ready_engine.clkHigh,
      latOpen := ready_engine.latOpen, latClosed := ready_engine.latClosed, latIdle := ready_engine.latIdle,
      committed := ready_engine.committed }
  request :=
    { afterBoot := fun _ _ => rfl
      requesting := by
        intro g h
        obtain rfl : Channel.D = g := by simpa [asserting, State.setFe] using h
        decide
      stable := rfl }

/-! ### Witnesses: the hypotheses of each statement, met together -/

theorem witness_ChannelCodeSelects :
    chField 0x0FFFF#18 = 0b00#2 ∧ chField 0x100FF#18 = 0b01#2 ∧ chField 0x2AAAA#18 = 0b10#2 ∧
      chField 0x300AB#18 = 0b11#2 := by decide

theorem witness_MalformedBytesRejected :
    ([0#8, 0#8] : List Byte).length < 3 ∧ 3 < ([0#8, 0#8, 0#8, 0#8] : List Byte).length ∧ 4 ≤ (4#8).toNat ∧
      (3#8).toNat < 4 := by decide

theorem witness_TransmissionIsEventSequence : 0 < Channel.D.width ∧ 15 < Channel.A.width ∧ 7 < Channel.D.width := by
  decide

theorem witness_EveryInstructionCompletes :
    (ready.sclk .A = false ∧ DefaultLength ready .A) ∧ (ready.sclk .B = false ∧ DefaultLength ready .B) ∧
    (ready.sclk .C = false ∧ DefaultLength ready .C) ∧ (ready.sclk .D = false ∧ DefaultLength ready .D) :=
  ⟨⟨rfl, rfl⟩, ⟨rfl, rfl⟩, ⟨rfl, rfl⟩, ⟨rfl, rfl⟩⟩

/-- With a chain of the width, one longer and one shorter; `k` below the width and from it up. -/
theorem witness_PlacementInAnyChain :
    ready.sclk (Instr.txA 0x1234#16).channel = false ∧
    15 < (ready.chains.get .A).stages.length ∧
    (ready.setChain .A { stages := stagesOf 24 0xABCDEF, outs := [] }).sclk .A = false ∧
    23 < ((ready.setChain .A { stages := stagesOf 24 0xABCDEF, outs := [] }).chains.get .A).stages.length ∧
    (ready.setChain .A { stages := stagesOf 8 0xFF, outs := [] }).sclk .A = false := by decide

theorem witness_CommitIsAtomic :
    ((drive { ch := .D, line := .lat, level := true } (during 25)).chains.get .D).outs ≠
      ((during 25).chains.get .D).outs ∧ 25 ≤ 3 * Channel.D.width + 1 ∧ 0 ≤ 3 * Channel.A.width + 1 := by decide

theorem witness_DataStableAroundClock :
    ready.sclk .C = false ∧ 0 < Channel.C.width ∧ 15 < Channel.C.width ∧ 50 ≤ 3 * Channel.C.width + 2 ∧
      (3 * 15 + 4 = 3 * 15 + 2 ∨ 3 * 15 + 4 = 3 * 15 + 3 ∨ 3 * 15 + 4 = 3 * 15 + 4) := by decide

theorem witness_LatchLowThroughout : 1 ≤ 1 ∧ 1 ≤ 3 * Channel.D.width + 1 ∧ 25 ≤ 3 * Channel.D.width + 1 := by decide

theorem witness_OtherChannelsUntouched : Channel.B ≠ Channel.A := by decide

theorem witness_TransmissionFrame : exec (.txA 0x1234#16) ready = .next (delivered .A 0x1234#16 ready) := rfl

theorem witness_TransmissionOverwrites :
    ready.sclk .A = false ∧ (delivered .A 0xFFFF#16 ready).sclk .A = false ∧ DefaultLength ready .A ∧
      DefaultLength (delivered .A 0xFFFF#16 ready) .A := ⟨rfl, rfl, rfl, rfl⟩

theorem witness_HighValueBitsIgnoredOnD : ∀ k, k < 8 → (0x01AB#16).getLsbD k = (0x00AB#16).getLsbD k := by decide

theorem witness_ChainShiftsAndCommits :
    (during 4).sclk .D = false ∧ 0 < ((during 4).chains.get .D).stages.length ∧
      6 + 1 < ((during 4).chains.get .D).stages.length ∧ (during 4).slatch .D = false := by decide

theorem witness_NothingElseChangesChain :
    (drive { ch := .D, line := .clk, level := true } (during 2)).chains.get .D ≠ (during 2).chains.get .D ∧
    (drive { ch := .D, line := .lat, level := true } (during 25)).chains.get .D ≠ (during 25).chains.get .D := by
  decide

/-- Outputs and lines that change: by a request, in `LAT_HI`, by reset. -/
theorem witness_ChannelMovesOnlyInItsTransmission :
    (∃ t, stepWith params2 (requested 0x300AB#18) = .next t ∧
      (t.chains.get .D).outs ≠ ((requested 0x300AB#18).chains.get .D).outs ∧
      t.lines.get .D ≠ (requested 0x300AB#18).lines.get .D) ∧
    (∃ t, stepWith params2 (during 25) = .next t ∧ (t.chains.get .D).outs ≠ ((during 25).chains.get .D).outs ∧
      t.lines.get .D ≠ (during 25).lines.get .D) ∧
    (∃ t, stepWith params2 { ready with rst := true } = .next t ∧ t.lines.get .A ≠ ready.lines.get .A) :=
  ⟨⟨_, rfl, by decide, by decide⟩, ⟨_, rfl, by decide, by decide⟩, ⟨_, rfl, by decide⟩⟩

theorem witness_RequestAcceptance :
    ((requested 0x2AAAA#18).rst = false ∧ (requested 0x2AAAA#18).st = .idle ∧
      (requested 0x2AAAA#18).reqValid = true ∧ requestChanged (requested 0x2AAAA#18) = false) ∧
    (¬ ((during 4).st = .idle ∧ (during 4).rst = false) ∧ (∃ t, clockEdge params2 (during 4) = .next t) ∧
      ∃ t, clockEdge params2 { during 4 with
        reqValid := true, reqCh := 0b10#2, reqValue := 0xAAAA#16, held := none } = .next t) :=
  ⟨by decide, by decide, ⟨_, rfl⟩, ⟨_, rfl⟩⟩

theorem witness_FsmTransitionTable :
    (fresh.st = .clearNext ∧ fresh.clr.toNat < 4 ∧ ({ fresh with clr := 3#3 } : State).clr.toNat < 4) ∧
    (({ fresh with clr := 4#3 } : State).st = .clearNext ∧ 4 ≤ ({ fresh with clr := 4#3 } : State).clr.toNat) ∧
    (ready.st = .idle ∧ ready.reqValid = false) ∧ ((during 0).dw = 0 ∧ (during 0).st = .latLo) ∧
    ((during 1).dw = 0 ∧ (during 1).st = .setData) ∧ ((during 2).dw = 0 ∧ (during 2).st = .clkHi) ∧
    ((during 3).dw = 0 ∧ (during 3).st = .clkLo) ∧ ((during 24).dw = 0 ∧ (during 24).st = .clkLo) ∧
    ((during 25).dw = 0 ∧ (during 25).st = .latHi) := by decide

theorem transmitting_during4 : Transmitting (during 4) := during_active.1

theorem witness_DwellIsExact :
    (params2.wf = true ∧ (during 4).rst = false ∧ (during 4).held = sampled (during 4) ∧ Transmitting (during 4) ∧
      (during 4).dw = 0 ∧ 0 < 1 ∧ 1 < params2.dwell) ∧
    (fresh.rst = false ∧ fresh.held = sampled fresh ∧ fresh.st = .clearNext) ∧
    (({ requested 0x300AB#18 with held := some 0x300AB#18 } : State).held =
        sampled { requested 0x300AB#18 with held := some 0x300AB#18 } ∧
      (requested 0x300AB#18).rst = false ∧ (requested 0x300AB#18).st = .idle ∧
      (requested 0x300AB#18).reqValid = true) :=
  ⟨⟨rfl, rfl, rfl, transmitting_during4, rfl, by decide, by decide⟩, by decide, by decide⟩

theorem witness_ClockLevelRefinesStep :
    params2.wf = true ∧ accepts (requested 0x300AB#18) = true ∧ requestChanged (requested 0x300AB#18) = false ∧
      51 < (3 * (Channel.ofCode (requested 0x300AB#18).reqCh).width + 2) * params2.dwell := by decide

theorem witness_BackToBackRequests :
    params2.wf = true ∧ accepts (requested 0x2AAAA#18) = true ∧ requestChanged (requested 0x2AAAA#18) = false ∧
      (requested 0x2AAAA#18).boot = false ∧ (requested 0x2AAAA#18).sclk (Channel.ofCode (requested 0x2AAAA#18).reqCh) = false ∧
      DefaultLength (requested 0x2AAAA#18) (Channel.ofCode (requested 0x2AAAA#18).reqCh) :=
  ⟨rfl, rfl, rfl, rfl, rfl, rfl⟩

theorem witness_ElectricalMinimumsMet :
    params2.wf = true ∧ params2.meetsMinimums = true ∧ (during 4).rst = false ∧
      (during 4).held = sampled (during 4) ∧ EngineInv (during 4) ∧ (during 4).st = .setData ∧ (during 4).dw = 0 :=
  ⟨rfl, by decide, rfl, rfl, during_engine, rfl, rfl⟩

theorem witness_ReadyMeansCommitted : EngineInv ready ∧ ready.reqReady = true := ⟨ready_engine, rfl⟩

theorem witness_ResetEdgeState : ({ during 4 with rst := true } : State).rst = true := rfl

theorem witness_StartupClearEvents : InReset fresh := inReset_fresh

theorem witness_StartupClearState :
    params2.wf = true ∧ InReset fresh ∧ fresh.rst = false ∧ requestChanged fresh = false ∧
      (∀ c, DefaultLength fresh c) ∧ 356 < 5 + 176 * params2.dwell :=
  ⟨rfl, inReset_fresh, rfl, rfl, fun c => by cases c <;> rfl, by decide⟩

theorem witness_ResetAbandonsTransmission :
    params2.wf = true ∧ EngineInv { during 4 with rst := true } ∧ Transmitting { during 4 with rst := true } ∧
      ({ during 4 with rst := true } : State).rst = true ∧ ∀ c, DefaultLength { during 4 with rst := true } c :=
  ⟨rfl,
    { lengths := during_engine.lengths, booted := during_engine.booted, clrBound := during_engine.clrBound,
      idle := during_engine.idle, clearing := during_engine.clearing, clears := during_engine.clears,
      count := during_engine.count, noDwell := during_engine.noDwell, clkHigh := during_engine.clkHigh,
      latOpen := during_engine.latOpen, latClosed := during_engine.latClosed, latIdle := during_engine.latIdle,
      committed := during_engine.committed },
    transmitting_during4, rfl, fun c => by cases c <;> rfl⟩

theorem witness_StepKeepsInvariant : Inv asserting ∧ ∃ t, stepWith params2 asserting = .next t :=
  ⟨asserting_inv, _, rfl⟩

theorem witness_ClockKeepsInvariant :
    params2.wf = true ∧ EngineInv (during 4) ∧ (during 4).dw < params2.dwell ∧
      ∃ t, clockEdge params2 (during 4) = .next t := ⟨rfl, during_engine, by decide, _, rfl⟩

theorem witness_GoodStatesNeverStop : Inv asserting := asserting_inv

theorem witness_RequesterFaultExactly :
    (∃ t, clockEdge params2 { during 4 with reqValid := true } = .next t) ∧
    (({ requested 0x300AB#18 with held := some 0x300AA#18 } : State).rst = false ∧
      ({ requested 0x300AB#18 with held := some 0x300AA#18 } : State).reqValid = true ∧
      ∃ w, ({ requested 0x300AB#18 with held := some 0x300AA#18 } : State).held = some w ∧
        w ≠ (requested 0x300AB#18).portWord) := ⟨⟨_, rfl⟩, rfl, rfl, _, rfl, by decide⟩

theorem witness_StepRunsDecodedInstruction :
    accepts asserting = true ∧ requestChanged asserting = false ∧
      ∃ t, exec (decodeWord asserting.portWord) asserting = .next t := ⟨rfl, rfl, _, rfl⟩

theorem witness_PlacedWordRuns : 0 < 2 ^ 18 ∧ 0x3FFFF < 2 ^ 18 := by decide

theorem blank_space : Blank [' ', '\t'] := by simp [Blank, isSpace]

theorem bareStart_muxTE : BareStart ['4', '2'] := by intro x hx; cases hx; decide

theorem bareEnd_muxTE : BareEnd ['4', '2'] := by intro x hx; cases hx; decide

theorem witness_TrimRemovesEdgeWhitespace :
    Blank [' ', '\t'] ∧ Blank [' ', '\t'] ∧ BareStart ['4', '2'] ∧ BareEnd ['4', '2'] :=
  ⟨blank_space, blank_space, bareStart_muxTE, bareEnd_muxTE⟩

/-- `0x1fF`, and `0xG1` and `0x`. -/
theorem witness_HexLiterals :
    Blank [' ', '\t'] ∧ ((['1', 'f', 'F'] : Text) ≠ [] ∧ Spells [hexLower, hexUpper] ['1', 'f', 'F'] [1, 15, 15]) ∧
    (BareEnd ['G', '1'] ∧ ∃ x ∈ (['G', '1'] : Text), x ∉ hexLower ∧ x ∉ hexUpper) ∧ BareEnd [] :=
  ⟨blank_space,
    ⟨by decide, ⟨hexLower, by decide, by decide⟩, ⟨hexLower, by decide, by decide⟩, ⟨hexUpper, by decide, by decide⟩,
      trivial⟩,
    ⟨by intro x hx; cases hx; decide, 'G', by decide, by decide, by decide⟩, by intro x hx; cases hx⟩

/-- At width 8: nine digits; eight digits; a character that is no digit; nothing. -/
theorem witness_BinaryLiterals :
    Blank [' ', '\t'] ∧ (BareEnd (List.replicate 9 '1') ∧ 8 < (List.replicate 9 '1').length) ∧
    (BareEnd (List.replicate 8 '1') ∧ (List.replicate 8 '1').length ≤ 8 ∧ List.replicate 8 '1' ≠ [] ∧
      Spells [binTable] (List.replicate 8 '1') (List.replicate 8 1)) ∧
    (BareEnd ['1', '2'] ∧ (['1', '2'] : Text).length ≤ 8 ∧ ∃ x ∈ (['1', '2'] : Text), x ∉ binTable) ∧ BareEnd [] := by
  refine ⟨blank_space, ⟨by intro x hx; cases hx; decide, by decide⟩,
    ⟨by intro x hx; cases hx; decide, by decide, by decide, ?_⟩,
    ⟨by intro x hx; cases hx; decide, by decide, '2', by decide, by decide⟩, by intro x hx; cases hx⟩
  have h : ∃ t ∈ [binTable], t[1]? = some '1' := ⟨binTable, by decide, by decide⟩
  exact ⟨h, h, h, h, h, h, h, h, trivial⟩

/-- `42`, and `0X10` and nothing. -/
theorem witness_DecimalLiterals :
    Blank [' ', '\t'] ∧ ((['4', '2'] : Text) ≠ [] ∧ Spells [decTable] ['4', '2'] [4, 2]) ∧
    (BareStart ['0', 'X'] ∧ BareEnd ['0', 'X'] ∧ (∀ r, (['0', 'X'] : Text) ≠ ['0', 'x'] ++ r) ∧
      (∀ r, (['0', 'X'] : Text) ≠ ['0', 'b'] ++ r) ∧ ∃ x ∈ (['0', 'X'] : Text), x ∉ decTable) ∧
    BareStart [] ∧ BareEnd [] :=
  ⟨blank_space, ⟨by decide, ⟨decTable, by decide, by decide⟩, ⟨decTable, by decide, by decide⟩, trivial⟩,
    ⟨by intro x hx; cases hx; decide, by intro x hx; cases hx; decide, by simp, by simp, 'X', by decide, by decide⟩,
    (by intro x hx; cases hx), (by intro x hx; cases hx)⟩

theorem witness_ParsedValueFits : parse .truncate 8 "0x1FF".toList = .ok 255 := by decide

theorem witness_KeywordMatch :
    "muxTE  5".toList = Channel.D.keyword ++ ' ' :: " 5".toList ∧
    ∀ (g : Channel) (token : Text), "foo 5".toList ≠ g.keyword ++ ' ' :: token := by
  refine ⟨by decide, fun g token h => ?_⟩
  cases g <;> simp [Channel.keyword] at h

/-- A front-end about to dispatch a line. -/
def dispatchingLine (line : Text) : State := { ready with fe := .dispatching line }

theorem witness_FailedCommand :
    (dispatchingLine "foo 5".toList).rst = false ∧ (dispatchingLine "foo 5".toList).st = .idle ∧
    (dispatchingLine "foo 5".toList).reqValid = false ∧
    (dispatchingLine "foo 5".toList).fe = .dispatching "foo 5".toList ∧
    dispatch params2.hexOverflow "foo 5".toList = .error .unknown := by decide

theorem witness_SuccessfulCommand :
    (dispatchingLine "muxTE 0xAB".toList).rst = false ∧ (dispatchingLine "muxTE 0xAB".toList).st = .idle ∧
    (dispatchingLine "muxTE 0xAB".toList).reqValid = false ∧
    (dispatchingLine "muxTE 0xAB".toList).fe = .dispatching "muxTE 0xAB".toList ∧
    dispatch params2.hexOverflow "muxTE 0xAB".toList = .ok (.D, 0xAB) := by decide

theorem witness_OnlyCommandsRequest :
    ∃ t, stepWith params2 (dispatchingLine "muxTE 0xAB".toList) = .next t ∧ t.reqValid = true :=
  ⟨_, rfl, by decide⟩

theorem witness_ReportDigits : 0 < 2 ^ Channel.D.width ∧ 255 < 2 ^ Channel.D.width ∧ 65535 < 2 ^ Channel.A.width := by
  decide

theorem witness_FieldsAreNibbles : 0 < 4 ∧ 3 < 4 := by decide

theorem witness_FieldsRoundTrip : (0x00FF#16).toNat < 256 := by decide

theorem witness_SelectFieldsAtOutputs :
    ready.sclk .D = false ∧ DefaultLength ready .D ∧ Channel.D ≠ .C ∧ 1 < Channel.D.fields :=
  ⟨rfl, rfl, by decide, by decide⟩

/-- No whole line; an empty one of each ending; a line of each ending; one of spaces. -/
theorem witness_IdleReadsOneLine :
    (ready.rst = false ∧ ready.st = .idle ∧ ready.reqValid = false ∧ ready.fe = .idle) ∧ '\n' ∉ ready.rx ∧
    ({ ready with rx := "\nx".toList } : State).rx = '\n' :: ['x'] ∧
    ({ ready with rx := "\r\nx".toList } : State).rx = '\r' :: '\n' :: ['x'] ∧
    ('\n' ∉ "foo 5".toList ∧ "foo 5".toList ≠ [] ∧ "foo 5".toList.getLast? ≠ some '\r' ∧
      ({ ready with rx := "foo 5\nx".toList } : State).rx = "foo 5".toList ++ '\n' :: ['x'] ∧
      ({ ready with rx := "foo 5\r\nx".toList } : State).rx = "foo 5".toList ++ '\r' :: '\n' :: ['x'] ∧
      ({ ready with rx := "\r\r\n".toList } : State).rx = ['\r'] ++ '\r' :: '\n' :: []) ∧
    (([' ', '\t'] : Text) ≠ [] ∧ Blank [' ', '\t']) :=
  ⟨by decide, by decide, by decide, by decide, by decide, by decide, blank_space⟩

theorem witness_CommandEndToEnd :
    (ready.rst = false ∧ ready.st = .idle ∧ ready.boot = false ∧ ready.reqValid = false ∧ ready.held = none ∧
      ready.fe = .idle ∧ ready.sclk .D = false) ∧ DefaultLength { ready with rx := "muxTE 0xAB\r\nx".toList } .D ∧
    ('\n' ∉ "0xAB".toList ∧ "0xAB".toList.getLast? ≠ some '\r') ∧
    parse params2.hexOverflow Channel.D.width "0xAB".toList = .ok 0xAB ∧
    ({ ready with rx := "muxTE 0xAB\r\nx".toList } : State).rx =
      Channel.D.keyword ++ ' ' :: "0xAB".toList ++ ['\r', '\n'] ++ ['x'] :=
  ⟨by decide, rfl, by decide, by decide, by decide⟩

theorem witness_FailedLineEndToEnd :
    (ready.rst = false ∧ ready.st = .idle ∧ ready.reqValid = false ∧ ready.held = none ∧ ready.fe = .idle) ∧
    ('\n' ∉ "foo 5".toList ∧ "foo 5".toList ≠ [] ∧ "foo 5".toList.getLast? ≠ some '\r') ∧
    dispatch params2.hexOverflow "foo 5".toList = .error .unknown ∧
    ({ ready with rx := "foo 5\nx".toList } : State).rx = "foo 5".toList ++ ['\n'] ++ ['x'] :=
  ⟨by decide, by decide, by decide, by decide⟩

/-- The reset state with characters waiting and a word left on the ports. -/
def freshBusyPorts : State := { fresh with rx := "muxTE 5\n".toList, reqCh := 0b10#2, reqValue := 0xAAAA#16 }

theorem witness_StartupRun :
    InReset freshBusyPorts ∧ freshBusyPorts.rst = false ∧ freshBusyPorts.reqValid = false ∧
      freshBusyPorts.fe = .startup ∧ ∀ c, DefaultLength freshBusyPorts c :=
  ⟨⟨fun c => by cases c <;> rfl, rfl, rfl, rfl, rfl, rfl, rfl, rfl⟩, rfl, rfl, rfl, fun c => by cases c <;> rfl⟩

end Sys2Proof.Tests
end

section
/-! The channel table and the status outputs (10_state.md). -/

namespace Sys2Proof.Proofs.Status

open Sys2Proof.Machine

/-! ### The status outputs -/

theorem reqReady_iff (s : State) : s.reqReady = true ↔ s.st = .idle ∧ s.rst = false := by
  simp [State.reqReady]

theorem busy_iff_not_reqReady (s : State) : s.busy = true ↔ s.reqReady = false := by
  simp [State.busy]

/-- Settles O27: each status output is the formula of R15. -/
theorem readyAndBusy : Obligations.ReadyAndBusy := fun s => ⟨reqReady_iff s, busy_iff_not_reqReady s⟩

/-! ### The channel table -/

/-- Settles O2: row by row, each entry of R11's table is the value the model's table function computes. -/
theorem channelTable : Obligations.ChannelTable :=
  ⟨⟨rfl, rfl, rfl, rfl⟩, ⟨rfl, rfl, rfl, rfl⟩, ⟨rfl, rfl, rfl, rfl⟩, ⟨rfl, rfl, rfl, rfl⟩⟩

end Sys2Proof.Proofs.Status
end

section
/-! The chains' outputs and the channels' independence under wire events (20_memory.md). -/

namespace Sys2Proof.Proofs.Memory

open Sys2Proof.Machine

/-- The wire event that drives `LAT[c]` high, the only one that can commit (R46, R180). -/
abbrev latchHigh (c : Channel) : WireEvent := { ch := c, line := .lat, level := true }

/-! ### One wire event -/

theorem react_outs (k : Chain) (l : Lines) (which : Line) (b : Bool) :
    (k.react l which b).outs = if which = .lat ∧ b = true ∧ l.lat = false then k.stages else k.outs := by
  cases which with
  | data => rfl
  | clk => by_cases h : (!l.clk && b) = true <;> simp [Chain.react, h]
  | lat => cases b <;> cases h : l.lat <;> simp [Chain.react, Chain.commit, h]

/-- `Q[c]` after a wire event: the stages if it is a rising edge of `LAT[c]`, else what it was (R46). -/
theorem drive_outs (e : WireEvent) (s : State) (c : Channel) :
    ((drive e s).chains.get c).outs =
      if e = latchHigh c ∧ s.slatch c = false then (s.chains.get c).stages else (s.chains.get c).outs := by
  obtain ⟨ch, line, level⟩ := e
  by_cases hc : c = ch
  · subst hc
    simp [drive, react_outs, State.slatch, and_assoc]
  · simp [drive, PerChannel.get_set_ne _ _ hc, Ne.symm hc]

theorem drive_outs_of_ne (e : WireEvent) (s : State) (c : Channel) (h : e ≠ latchHigh c) :
    ((drive e s).chains.get c).outs = (s.chains.get c).outs := by
  simp [drive_outs, h]

theorem drive_slatch (e : WireEvent) (s : State) (c : Channel) :
    (drive e s).slatch c = if e.ch = c ∧ e.line = .lat then e.level else s.slatch c := by
  obtain ⟨ch, line, level⟩ := e
  by_cases hc : c = ch
  · subst hc
    cases line <;> simp [drive, State.slatch, Lines.drive]
  · simp [drive, State.slatch, PerChannel.get_set_ne _ _ hc, Ne.symm hc]

theorem drive_slatch_low (e : WireEvent) (s : State) (c : Channel) (h : e ≠ latchHigh c)
    (hl : s.slatch c = false) : (drive e s).slatch c = false := by
  rw [drive_slatch]
  split
  next hlat =>
    obtain ⟨ch, line, level⟩ := e
    obtain ⟨rfl, rfl⟩ := hlat
    simpa using h
  next => exact hl

/-! ### Wire events that do not drive the latch high -/

theorem driveAll_cons (e : WireEvent) (es : List WireEvent) (s : State) :
    driveAll (e :: es) s = driveAll es (drive e s) := rfl

theorem driveAll_outs_of_ne (c : Channel) (es : List WireEvent) (h : ∀ e ∈ es, e ≠ latchHigh c) (s : State) :
    ((driveAll es s).chains.get c).outs = (s.chains.get c).outs := by
  induction es generalizing s with
  | nil => rfl
  | cons e es ih =>
    obtain ⟨he, hes⟩ := List.forall_mem_cons.mp h
    rw [driveAll_cons, ih hes, drive_outs_of_ne e s c he]

theorem driveAll_slatch_low (c : Channel) (es : List WireEvent) (h : ∀ e ∈ es, e ≠ latchHigh c) (s : State)
    (hl : s.slatch c = false) : (driveAll es s).slatch c = false := by
  induction es generalizing s with
  | nil => exact hl
  | cons e es ih =>
    obtain ⟨he, hes⟩ := List.forall_mem_cons.mp h
    exact ih hes _ (drive_slatch_low e s c he hl)

/-! ### A transmission up to its commit -/

/-- Before its last event a transmission does not drive the latch high (R80, R85). -/
theorem transmitEvents_take_ne_latchHigh (c : Channel) (v : Value) (n : Nat) (hn : n ≤ 3 * c.width + 1) :
    ∀ e ∈ (transmitEvents c v).take n, e ≠ latchHigh c := by
  intro e he
  have hmem := List.take_subset_take_left _ hn he
  rw [transmitEvents_take c v c.width le_rfl, List.mem_cons, List.mem_flatMap] at hmem
  rcases hmem with rfl | ⟨b, -, hb⟩
  · simp
  · rintro rfl
    simp [bitEvents] at hb

/-- The last event of a transmission drives the latch high (R80). -/
theorem transmitEvents_eq_take_append (c : Channel) (v : Value) :
    transmitEvents c v = (transmitEvents c v).take (3 * c.width + 1) ++ [latchHigh c] := by
  rw [transmitEvents_take c v c.width le_rfl, List.take_of_length_le (bitsMsbFirst_length _ _).le]
  rfl

/-- The latch is low from the first event of a transmission up to its commit (R85). -/
theorem transmission_slatch_low (c : Channel) (v : Value) (s : State) (n : Nat) (h0 : 0 < n)
    (hn : n ≤ 3 * c.width + 1) : (driveAll ((transmitEvents c v).take n) s).slatch c = false := by
  have hne := transmitEvents_take_ne_latchHigh c v n hn
  obtain ⟨m, rfl⟩ := Nat.exists_eq_add_one.mpr h0
  rw [transmitEvents, List.take_succ_cons] at hne ⊢
  exact driveAll_slatch_low c _ (List.forall_mem_cons.mp hne).2 _ (by simp [drive_slatch])

theorem transmission_outs_kept (c : Channel) (v : Value) (s : State) (n : Nat) (hn : n ≤ 3 * c.width + 1) :
    ((driveAll ((transmitEvents c v).take n) s).chains.get c).outs = (s.chains.get c).outs :=
  driveAll_outs_of_ne c _ (transmitEvents_take_ne_latchHigh c v n hn) s

theorem transmission_outs_committed (c : Channel) (v : Value) (s : State) :
    ((driveAll (transmitEvents c v) s).chains.get c).outs =
      ((driveAll ((transmitEvents c v).take (3 * c.width + 1)) s).chains.get c).stages := by
  have hlow := transmission_slatch_low c v s (3 * c.width + 1) (Nat.succ_pos _) le_rfl
  rw [congrArg (driveAll · s) (transmitEvents_eq_take_append c v), driveAll_append]
  exact (drive_outs (latchHigh c) _ c).trans (if_pos ⟨rfl, hlow⟩)

/-- Settles O11: `drive_outs` says when one event changes `Q[c]`; a transmission's only such event is its last, at which
the latch is low. -/
theorem commitIsAtomic : Obligations.CommitIsAtomic := by
  refine ⟨fun e s c hne => ?_, transmission_outs_kept, transmission_outs_committed⟩
  by_cases hrise : e = latchHigh c ∧ s.slatch c = false
  · exact ⟨hrise.1, hrise.2, by rw [drive_outs, if_pos hrise]⟩
  · exact absurd (by rw [drive_outs, if_neg hrise]) hne

/-! ### The other channels -/

theorem setLane_lane_of_ne (s : State) {c e : Channel} (x : Lines × Chain) (h : e ≠ c) :
    (s.setLane c x).lane e = s.lane e := by
  simp [State.setLane, State.lane, PerChannel.get_set_ne _ _ h]

/-- Wire events of one channel leave the lines and the chain of another as they were (R51). -/
theorem driveAll_lane_of_ne {c e : Channel} (h : e ≠ c) (es : List WireEvent) (hes : ∀ x ∈ es, x.ch = c) (s : State) :
    (driveAll es s).lane e = s.lane e := by
  rw [driveAll_eq c es hes, setLane_lane_of_ne s _ h]

/-- Settles O14: every event of a transmission is of its own channel, so `driveAll_lane_of_ne` holds of every part. -/
theorem otherChannelsUntouched : Obligations.OtherChannelsUntouched := by
  intro c e v s n h
  have hlane := driveAll_lane_of_ne h ((transmitEvents c v).take n)
    (fun x hx => transmitEvents_ch c v x (List.mem_of_mem_take hx)) s
  exact ⟨transmitEvents_ch c v, congrArg Prod.fst hlane, congrArg Prod.snd hlane⟩

end Sys2Proof.Proofs.Memory
end

section
/-! What a request word decodes to (30_encoding.md). -/

namespace Sys2Proof.Proofs.Encoding

/-! ### The field `CH` -/

/-- A word whose `CH` is the code of channel `c` is the transmission of its `VALUE` on `c` (R61). -/
theorem decodeWord_of_chField_eq_code {w : ReqWord} {c : Channel} (h : chField w = c.code) :
    decodeWord w = Instr.transmit c (valueField w) := by
  rw [decodeWord_eq, h, Channel.ofCode_code]

theorem channel_decodeWord_of_chField_eq_code {w : ReqWord} {c : Channel} (h : chField w = c.code) :
    (decodeWord w).channel = c := by
  rw [decodeWord_of_chField_eq_code h, Instr.transmit_channel]

/-- Settles O4: each value of `CH` is one channel's code, and the widths are those of R11. -/
theorem channelCodeSelects : Obligations.ChannelCodeSelects := by
  have selects (w : ReqWord) (c : Channel) {n : Nat} (hn : c.width = n) (h : chField w = c.code) :
      decodeWord w = Instr.transmit c (valueField w) ∧ (decodeWord w).channel = c ∧ c.width = n :=
    ⟨decodeWord_of_chField_eq_code h, channel_decodeWord_of_chField_eq_code h, hn⟩
  exact fun w => ⟨selects w .A rfl, selects w .B rfl, selects w .C rfl, selects w .D rfl⟩

end Sys2Proof.Proofs.Encoding
end

section
/-! A transmission event by event: its sequence, its clock pulses and its latch (40_transmit.md). -/

namespace Sys2Proof.Proofs.Transmit

open Sys2Proof.Machine Sys2Proof.Safety Sys2Proof.Proofs.Memory

/-! ### The events by their index (R80) -/

/-- The bits of a transmission are `3W` events. -/
theorem transmission_bits_length (c : Channel) (v : Value) :
    ((bitsMsbFirst c.width v).flatMap (bitEvents c)).length = 3 * c.width := by
  rw [bitEvents_flatMap_length, bitsMsbFirst_length]

theorem transmitEvents_length (c : Channel) (v : Value) : (transmitEvents c v).length = 3 * c.width + 2 := by
  rw [transmitEvents, List.length_cons, List.length_append, transmission_bits_length, List.length_singleton]

theorem transmitEvents_get_first (c : Channel) (v : Value) :
    (transmitEvents c v)[0]? = some { ch := c, line := .lat, level := false } := rfl

/-- Event `3j + 1 + k` is event `k` of the bit `v[W-1-j]`. -/
theorem transmitEvents_get_bit (c : Channel) (v : Value) {j k : Nat} (hj : j < c.width) (hk : k < 3) :
    (transmitEvents c v)[3 * j + k + 1]? = (bitEvents c (v.getLsbD (c.width - 1 - j)))[k]? := by
  have hlt : 3 * j + k < ((bitsMsbFirst c.width v).flatMap (bitEvents c)).length := by
    rw [transmission_bits_length]
    omega
  rw [transmitEvents, List.getElem?_cons_succ, List.getElem?_append_left hlt, bitEvents_flatMap_get c _ j k hk,
    bitsMsbFirst_get _ v j hj, Option.bind_some]

theorem transmitEvents_get_data (c : Channel) (v : Value) {j : Nat} (hj : j < c.width) :
    (transmitEvents c v)[3 * j + 1]? = some { ch := c, line := .data, level := v.getLsbD (c.width - 1 - j) } :=
  transmitEvents_get_bit c v hj (k := 0) (by decide)

theorem transmitEvents_get_clockHigh (c : Channel) (v : Value) {j : Nat} (hj : j < c.width) :
    (transmitEvents c v)[3 * j + 2]? = some { ch := c, line := .clk, level := true } :=
  transmitEvents_get_bit c v hj (k := 1) (by decide)

theorem transmitEvents_get_clockLow (c : Channel) (v : Value) {j : Nat} (hj : j < c.width) :
    (transmitEvents c v)[3 * j + 3]? = some { ch := c, line := .clk, level := false } :=
  transmitEvents_get_bit c v hj (k := 2) (by decide)

theorem transmitEvents_get_last (c : Channel) (v : Value) :
    (transmitEvents c v)[3 * c.width + 1]? = some (latchHigh c) := by
  rw [transmitEvents, List.getElem?_cons_succ, ← transmission_bits_length c v, List.getElem?_concat_length]

/-! ### An instruction is its events -/

/-- Accepting a request and finishing it write the engine's registers only, so lines and chains are those the events
give (R80, R94, R95). -/
theorem runTransmission_lines_chains (c : Channel) (v : Value) (s : State) :
    (runTransmission c v s).lines = (driveAll (transmitEvents c v) s).lines ∧
    (runTransmission c v s).chains = (driveAll (transmitEvents c v) s).chains := by
  rw [runTransmission, driveAll_eq c _ (transmitEvents_ch c v), driveAll_eq c _ (transmitEvents_ch c v)]
  exact ⟨rfl, rfl⟩

/-- Settles O8: the events are read off by index, and `runTransmission` drives exactly them. -/
theorem transmissionIsEventSequence : Obligations.TransmissionIsEventSequence := by
  intro c v
  refine ⟨transmitEvents_length c v, transmitEvents_get_first c v, fun j hj => ?_, transmitEvents_get_last c v,
    fun s => ⟨runTransmission c v s, ?_, runTransmission_lines_chains c v s⟩⟩
  · exact ⟨transmitEvents_get_data c v hj, transmitEvents_get_clockHigh c v hj, transmitEvents_get_clockLow c v hj⟩
  · rw [exec_eq, Instr.transmit_channel, Instr.transmit_value]

/-! ### One wire event and one more event of a list -/

/-- A line's level after a wire event: the event's if it drives that line, else what it was. -/
theorem drive_level (e : WireEvent) (s : State) (c : Channel) (which : Line) :
    ((drive e s).lines.get c).level which =
      if e.ch = c ∧ e.line = which then e.level else (s.lines.get c).level which := by
  obtain ⟨ch, line, level⟩ := e
  by_cases hc : c = ch
  · subst hc
    cases line <;> cases which <;> simp [drive, Lines.drive, Lines.level]
  · simp [drive, PerChannel.get_set_ne _ _ hc, Ne.symm hc]

theorem drive_sdata (e : WireEvent) (s : State) (c : Channel) :
    (drive e s).sdata c = if e.ch = c ∧ e.line = .data then e.level else s.sdata c :=
  drive_level e s c .data

theorem drive_sclk (e : WireEvent) (s : State) (c : Channel) :
    (drive e s).sclk c = if e.ch = c ∧ e.line = .clk then e.level else s.sclk c :=
  drive_level e s c .clk

theorem driveAll_take_succ {es : List WireEvent} {n : Nat} {e : WireEvent} (h : es[n]? = some e) (s : State) :
    driveAll (es.take (n + 1)) s = drive e (driveAll (es.take n) s) := by
  rw [List.take_add_one, h, driveAll_append]
  rfl

theorem driveAll_transmitEvents_take_one (c : Channel) (v : Value) (s : State) :
    driveAll ((transmitEvents c v).take 1) s = drive { ch := c, line := .lat, level := false } s := rfl

theorem driveAll_transmitEvents (c : Channel) (v : Value) (s : State) :
    driveAll (transmitEvents c v) s = drive (latchHigh c) (driveAll ((transmitEvents c v).take (3 * c.width + 1)) s) := by
  rw [← driveAll_take_succ (transmitEvents_get_last c v), List.take_of_length_le (transmitEvents_length c v).le]

/-! ### The data line through a transmission (R83) -/

/-- The data level of bit `j` is set by its data event and kept by both events of its clock pulse. -/
theorem transmission_sdata (c : Channel) (v : Value) (s : State) {j : Nat} (hj : j < c.width) {n : Nat}
    (hn : n = 3 * j + 2 ∨ n = 3 * j + 3 ∨ n = 3 * j + 4) :
    (driveAll ((transmitEvents c v).take n) s).sdata c = v.getLsbD (c.width - 1 - j) := by
  have hset : (driveAll ((transmitEvents c v).take (3 * j + 2)) s).sdata c = v.getLsbD (c.width - 1 - j) := by
    simp [driveAll_take_succ (transmitEvents_get_data c v hj), drive_sdata]
  have hhigh : (driveAll ((transmitEvents c v).take (3 * j + 3)) s).sdata c = v.getLsbD (c.width - 1 - j) := by
    simp [driveAll_take_succ (transmitEvents_get_clockHigh c v hj), drive_sdata, hset]
  rcases hn with rfl | rfl | rfl
  · exact hset
  · exact hhigh
  · simp [driveAll_take_succ (transmitEvents_get_clockLow c v hj), drive_sdata, hhigh]

theorem transmission_sdata_first (c : Channel) (v : Value) (s : State) :
    (driveAll ((transmitEvents c v).take 1) s).sdata c = s.sdata c := by
  simp [driveAll_transmitEvents_take_one, drive_sdata]

theorem transmission_sdata_last (c : Channel) (v : Value) (s : State) :
    (driveAll (transmitEvents c v) s).sdata c = v.getLsbD 0 := by
  have hw := c.width_pos
  have hbit := transmission_sdata c v s (j := c.width - 1) (n := 3 * c.width + 1) (by omega) (by omega)
  simpa [driveAll_transmitEvents, drive_sdata] using hbit

/-! ### The clock line through a transmission (R83) -/

section
variable (c : Channel) (v : Value) (s : State)

/-- The clock is low before each bit, and after the last. -/
theorem transmission_sclk_before_bit (hc : s.sclk c = false) {j : Nat} (hj : j ≤ c.width) :
    (driveAll ((transmitEvents c v).take (3 * j + 1)) s).sclk c = false := by
  cases j with
  | zero => simp [driveAll_transmitEvents_take_one, drive_sclk, hc]
  | succ j => simp [driveAll_take_succ (transmitEvents_get_clockLow c v hj), drive_sclk, Nat.mul_succ]

theorem transmission_sclk_after_data (hc : s.sclk c = false) {j : Nat} (hj : j < c.width) :
    (driveAll ((transmitEvents c v).take (3 * j + 2)) s).sclk c = false := by
  simp [driveAll_take_succ (transmitEvents_get_data c v hj), drive_sclk, transmission_sclk_before_bit c v s hc hj.le]

theorem transmission_sclk_in_pulse {j : Nat} (hj : j < c.width) :
    (driveAll ((transmitEvents c v).take (3 * j + 3)) s).sclk c = true := by
  simp [driveAll_take_succ (transmitEvents_get_clockHigh c v hj), drive_sclk]

theorem transmission_sclk_last (hc : s.sclk c = false) :
    (driveAll ((transmitEvents c v).take (3 * c.width + 2)) s).sclk c = false := by
  simp [driveAll_take_succ (transmitEvents_get_last c v), drive_sclk, transmission_sclk_before_bit c v s hc le_rfl]

/-- The clock is high exactly after the events `3j + 2`. -/
theorem transmission_sclk_iff (hc : s.sclk c = false) {n : Nat} (hn : n ≤ 3 * c.width + 2) :
    (driveAll ((transmitEvents c v).take n) s).sclk c = true ↔ n % 3 = 0 ∧ 0 < n := by
  have hpos : n = 0 ∨ ∃ j, j ≤ c.width ∧ (n = 3 * j + 1 ∨ n = 3 * j + 2 ∨ j < c.width ∧ n = 3 * j + 3) := by
    rcases Nat.eq_zero_or_pos n with h0 | h0
    · exact .inl h0
    · exact .inr ⟨(n - 1) / 3, by omega, by omega⟩
  rcases hpos with rfl | ⟨j, hj, rfl | rfl | ⟨hlt, rfl⟩⟩
  · simp [driveAll, hc]
  · simp [transmission_sclk_before_bit c v s hc hj]
  · have hlow : (driveAll ((transmitEvents c v).take (3 * j + 2)) s).sclk c = false := by
      rcases hj.lt_or_eq with hlt | rfl
      · exact transmission_sclk_after_data c v s hc hlt
      · exact transmission_sclk_last c v s hc
    simp [hlow]
  · simp [transmission_sclk_in_pulse c v s hlt]

end

/-! ### Counting the clock's rises -/

theorem clockRises_append (c : Channel) (xs ys : List WireEvent) (s : State) :
    clockRises c (xs ++ ys) s = clockRises c xs s + clockRises c ys (driveAll xs s) := by
  induction xs generalizing s with
  | nil => simp [clockRises, driveAll]
  | cons e xs ih => simp [clockRises, ih, driveAll_cons, Nat.add_assoc]

theorem driveAll_bitEvents_sclk (c : Channel) (b : Bool) (s : State) :
    (driveAll (bitEvents c b) s).sclk c = false := by
  simp [bitEvents, driveAll, drive_sclk]

theorem clockRises_bitEvents (c : Channel) (b : Bool) (s : State) (hc : s.sclk c = false) :
    clockRises c (bitEvents c b) s = 1 := by
  simp [bitEvents, clockRises, drive_sclk, hc]

/-- From a low clock, each bit is one rising edge. -/
theorem clockRises_bits (c : Channel) (bits : List Bool) (s : State) (hc : s.sclk c = false) :
    clockRises c (bits.flatMap (bitEvents c)) s = bits.length := by
  induction bits generalizing s with
  | nil => rfl
  | cons b bs ih =>
    rw [List.flatMap_cons, clockRises_append, clockRises_bitEvents c b s hc, ih _ (driveAll_bitEvents_sclk c b s),
      List.length_cons, Nat.add_comm]

theorem clockRises_transmitEvents (c : Channel) (v : Value) (s : State) (hc : s.sclk c = false) :
    clockRises c (transmitEvents c v) s = c.width := by
  have hlow : (drive { ch := c, line := .lat, level := false } s).sclk c = false := by simp [drive_sclk, hc]
  simp [transmitEvents, clockRises, clockRises_append, clockRises_bits c _ _ hlow, bitsMsbFirst_length]

/-- Settles O12: the levels of the data and the clock line follow event by event from `drive_sdata` and `drive_sclk`. -/
theorem dataStableAroundClock : Obligations.DataStableAroundClock := fun c v s hc =>
  ⟨clockRises_transmitEvents c v s hc, fun _ hj _ hn => transmission_sdata c v s hj hn,
    fun _ hn => transmission_sclk_iff c v s hc hn, transmission_sdata_first c v s, transmission_sdata_last c v s⟩

/-! ### The latch (R84, R85) -/

theorem transmission_slatch_last (c : Channel) (v : Value) (s : State) :
    (driveAll (transmitEvents c v) s).slatch c = true := by
  simp [driveAll_transmitEvents, drive_slatch]

theorem latchRises_append (c : Channel) (xs ys : List WireEvent) (s : State) :
    latchRises c (xs ++ ys) s = latchRises c xs s + latchRises c ys (driveAll xs s) := by
  induction xs generalizing s with
  | nil => simp [latchRises, driveAll]
  | cons e xs ih => simp [latchRises, ih, driveAll_cons, Nat.add_assoc]

/-- Only `latchHigh c` can be a rising edge of `LAT[c]`. -/
theorem latchRises_of_ne (c : Channel) (es : List WireEvent) (h : ∀ e ∈ es, e ≠ latchHigh c) (s : State) :
    latchRises c es s = 0 := by
  induction es generalizing s with
  | nil => rfl
  | cons e es ih =>
    obtain ⟨he, hes⟩ := List.forall_mem_cons.mp h
    have hrise : ¬ (e.ch = c ∧ e.line = .lat ∧ e.level = true ∧ s.slatch c = false) := by
      obtain ⟨ch, line, level⟩ := e
      rintro ⟨rfl, rfl, rfl, -⟩
      exact he rfl
    rw [latchRises, if_neg hrise, ih hes]

theorem latchRises_transmitEvents (c : Channel) (v : Value) (s : State) :
    latchRises c (transmitEvents c v) s = 1 := by
  have hlow := transmission_slatch_low c v s (3 * c.width + 1) (Nat.succ_pos _) le_rfl
  rw [transmitEvents_eq_take_append, latchRises_append,
    latchRises_of_ne c _ (transmitEvents_take_ne_latchHigh c v _ le_rfl)]
  simp [latchRises, hlow]

/-- Settles O13: the first event lowers the latch, and only the last, which finds it low, drives it high. -/
theorem latchLowThroughout : Obligations.LatchLowThroughout := fun c v s =>
  ⟨transmission_slatch_low c v s, transmission_slatch_last c v s,
    latchRises_transmitEvents c v s⟩

end Sys2Proof.Proofs.Transmit
end

section
/-! The field decomposer (41_frontend.md). -/

namespace Sys2Proof.Proofs.Fields

open Sys2Proof.Machine

theorem decompose_length (v : Value) (count : Nat) : (decompose v count).length = count := by
  simp [decompose]

theorem decompose_get (v : Value) {count i : Nat} (hi : i < count) :
    (decompose v count)[i]? = some (v.extractLsb' (4 * i) 4) := by
  simp [decompose, hi]

/-- Settles O52: field `i` is a four-bit extract at `4i`, and each group's field count is that of R11's table. -/
theorem fieldsAreNibbles : Obligations.FieldsAreNibbles := by
  refine ⟨fun v count i hi => ⟨_, decompose_get v hi, fun k hk => ?_⟩, decompose_length, fun n => ⟨rfl, rfl, rfl, rfl⟩⟩
  simp [hk]

theorem decompose_succ (v : Value) (count : Nat) :
    decompose v (count + 1) = decompose v count ++ [v.extractLsb' (4 * count) 4] := by
  simp [decompose, List.range_succ]

theorem toNat_field (v : Value) (i : Nat) : (v.extractLsb' (4 * i) 4).toNat = v.toNat / 16 ^ i % 16 := by
  simp [BitVec.extractLsb'_toNat, Nat.shiftRight_eq_div_pow, Nat.pow_mul]

/-- Any number of fields, weighted by the powers of 16, is the value modulo `16 ^ count`. -/
theorem ofDigits_decompose (v : Value) (count : Nat) :
    Nat.ofDigits 16 ((decompose v count).map BitVec.toNat) = v.toNat % 16 ^ count := by
  induction count with
  | zero => simp [decompose, Nat.mod_one]
  | succ count ih =>
    rw [decompose_succ, List.map_append, Nat.ofDigits_append, ih, List.length_map, decompose_length, List.map_singleton,
      toNat_field, Nat.ofDigits_singleton, Nat.mod_pow_succ]

/-- Settles O53: the sum of the fields is the value modulo `16 ^ count`, and the value is below that. -/
theorem fieldsRoundTrip : Obligations.FieldsRoundTrip := by
  refine ⟨fun v => ?_, fun v hv => ?_⟩
  · exact (ofDigits_decompose v 4).trans (Nat.mod_eq_of_lt v.isLt)
  · exact (ofDigits_decompose v 2).trans (Nat.mod_eq_of_lt hv)

end Sys2Proof.Proofs.Fields
end

section
/-! The keyword match and the dispatch of a line (41_frontend.md). -/

namespace Sys2Proof.Proofs.Keywords

open Sys2Proof.Machine

theorem mem_channel_all (g : Channel) : g ∈ Channel.all := by
  cases g <;> decide

theorem line_of_matchKeyword {line token : Text} {g : Channel} (h : matchKeyword line = some (g, token)) :
    line = g.keyword ++ ' ' :: token := by
  obtain ⟨k, -, hk⟩ := List.exists_of_findSome?_eq_some h
  obtain ⟨t, ht, he⟩ := Option.map_eq_some_iff.mp hk
  obtain ⟨rfl, rfl⟩ := Prod.mk.inj he
  exact (afterKeyword_iff _ _ _).mp ht

/-- The match finds the one group whose keyword and space begin the line, and no two groups can (R123). -/
theorem matchKeyword_eq_some_iff (line token : Text) (g : Channel) :
    matchKeyword line = some (g, token) ↔ line = g.keyword ++ ' ' :: token := by
  refine ⟨line_of_matchKeyword, fun hline => ?_⟩
  cases hfound : matchKeyword line with
  | none =>
    have hnone := List.findSome?_eq_none_iff.mp hfound g (mem_channel_all g)
    simp [(afterKeyword_iff _ _ _).mpr hline] at hnone
  | some found =>
    obtain ⟨k, t⟩ := found
    obtain ⟨rfl, rfl⟩ := keyword_space_inj g k token t (hline.symm.trans (line_of_matchKeyword hfound))
    rfl

theorem matchKeyword_eq_none {line : Text} (h : ∀ (g : Channel) (token : Text), line ≠ g.keyword ++ ' ' :: token) :
    matchKeyword line = none :=
  Option.eq_none_iff_forall_ne_some.mpr fun ⟨g, token⟩ hfound => h g token (line_of_matchKeyword hfound)

theorem dispatch_of_matchKeyword (hex : HexOverflow) {line token : Text} {g : Channel}
    (h : matchKeyword line = some (g, token)) :
    dispatch hex line = ((parse hex g.width token).map (Prod.mk g)).mapError (failureOfParse g) := by
  simp only [dispatch, h]
  cases parse hex g.width token with
  | ok n => rfl
  | error f => rfl

theorem dispatch_of_matchKeyword_none (hex : HexOverflow) {line : Text} (h : matchKeyword line = none) :
    dispatch hex line = .error .unknown := by
  rw [dispatch, h]

/-- Settles O47: a match is unique, and the dispatch of a matched line is its token's parse, tagged with the group. -/
theorem keywordMatch : Obligations.KeywordMatch := by
  refine fun hex line => ⟨fun g token => matchKeyword_eq_some_iff line token g, fun g token hline => ?_,
    fun hnone => dispatch_of_matchKeyword_none hex (matchKeyword_eq_none hnone)⟩
  rw [dispatch_of_matchKeyword hex ((matchKeyword_eq_some_iff line token g).mpr hline)]
  cases parse hex g.width token with
  | ok n => rfl
  | error f => cases f <;> rfl

end Sys2Proof.Proofs.Keywords
end

section
/-! The literal parser: trimming, digits and the three forms (41_frontend.md). -/

namespace Sys2Proof.Proofs.Literals

open Sys2Proof.Machine Sys2Proof.Safety

/-! ### Trimming (R126) -/

theorem isSpace_iff (x : Char) :
    isSpace x = true ↔
      x = ' ' ∨ x = '\t' ∨ x = '\n' ∨ x = Char.ofNat 0x0B ∨ x = Char.ofNat 0x0C ∨ x = '\r' := by
  simp [isSpace, ← Char.toNat_inj]

theorem trim_blank (t : Text) (h : Blank t) : trim t = [] := by
  have hdrop : t.dropWhile isSpace = [] := List.dropWhile_eq_nil_iff.mpr h
  simp [trim, hdrop]

theorem bareStart_reverse {t : Text} (h : BareEnd t) : BareStart t.reverse := fun x hx =>
  h x (by rwa [List.head?_reverse] at hx)

theorem bareStart_append {t post : Text} (ht : t ≠ []) (h : BareStart t) : BareStart (t ++ post) := fun x hx =>
  h x (by rwa [List.head?_append_of_ne_nil t ht] at hx)

/-- Whitespace around a text that has none at its ends is all that `trim` removes. -/
theorem trim_padded {pre t post : Text} (hpre : Blank pre) (hpost : Blank post) (hstart : BareStart t)
    (hend : BareEnd t) : trim (pre ++ t ++ post) = t := by
  by_cases ht : t = []
  · subst ht
    exact trim_blank _ (by simpa [Blank, or_imp, forall_and] using And.intro hpre hpost)
  · have hfront : (pre ++ t ++ post).dropWhile isSpace = t ++ post := by
      rw [List.append_assoc, dropWhile_blank pre _ hpre (bareStart_append ht hstart)]
    have hback : (t ++ post).reverse.dropWhile isSpace = t.reverse := by
      rw [List.reverse_append, dropWhile_blank _ _ (fun x hx => hpost x (List.mem_reverse.mp hx)) (bareStart_reverse hend)]
    rw [trim, hfront, hback, List.reverse_reverse]

/-- Settles O42: `isSpace` character by character, and `trim_padded`. -/
theorem trimRemovesEdgeWhitespace : Obligations.TrimRemovesEdgeWhitespace :=
  ⟨isSpace_iff, fun _ _ _ => trim_padded⟩

theorem parse_padded (hex : HexOverflow) (w : Nat) {pre t post : Text} (hpre : Blank pre) (hpost : Blank post)
    (hstart : BareStart t) (hend : BareEnd t) : parse hex w (pre ++ t ++ post) = parseForm hex w t := by
  rw [parse, trim_padded hpre hpost hstart hend]

/-! ### Texts without whitespace at their ends -/

theorem bareStart_of_noSpace {t : Text} (h : ∀ x ∈ t, isSpace x = false) : BareStart t := fun x hx =>
  h x (List.mem_of_head? hx)

theorem bareEnd_of_noSpace {t : Text} (h : ∀ x ∈ t, isSpace x = false) : BareEnd t := fun x hx =>
  h x (List.mem_of_getLast? hx)

theorem bareEnd_append {p r : Text} (hp : BareEnd p) (hr : BareEnd r) : BareEnd (p ++ r) := fun x hx => by
  rw [List.getLast?_append] at hx
  cases hlast : r.getLast? with
  | none => exact hp x (by simpa [hlast] using hx)
  | some y => exact hr x (by simpa [hlast] using hx)

/-! ### Digits (R128, R131, R132) -/

/-- A digit function and its tables agree: it gives a character the index at which a table holds it, and no other. No
table holds whitespace. -/
structure Reads (digit : Char → Option Nat) (tables : List Text) : Prop where
  value_iff : ∀ x d, digit x = some d ↔ ∃ t ∈ tables, t[d]? = some x
  noSpace : ∀ t ∈ tables, ∀ x ∈ t, isSpace x = false

theorem digit_of_table {digit : Char → Option Nat} {tables : List Text}
    (h : ∀ t ∈ tables, ∀ p ∈ t.zipIdx, digit p.1 = some p.2) {x : Char} {d : Nat} (hx : ∃ t ∈ tables, t[d]? = some x) :
    digit x = some d := by
  obtain ⟨t, ht, hx⟩ := hx
  exact h t ht (x, d) (List.mk_mem_zipIdx_iff_getElem?.mpr hx)

theorem table_get_of_toNat {table : Text} {x : Char} {n d : Nat} (hx : x.toNat = n)
    (h : table[d]? = some (Char.ofNat n)) : table[d]? = some x := by
  rw [h, ← hx, Char.ofNat_toNat]

theorem decTable_get : ∀ d < 10, decTable[d]? = some (Char.ofNat (48 + d)) := by decide

theorem hexLower_get_decimal : ∀ d < 10, hexLower[d]? = some (Char.ofNat (48 + d)) := by decide

theorem hexLower_get_letter : ∀ d < 16, 10 ≤ d → hexLower[d]? = some (Char.ofNat (87 + d)) := by decide

theorem hexUpper_get_letter : ∀ d < 16, 10 ≤ d → hexUpper[d]? = some (Char.ofNat (55 + d)) := by decide

/-- A hexadecimal digit is a decimal digit, or a letter of lower or of upper case (R128). -/
theorem hexDigit_cases {x : Char} {d : Nat} (h : hexDigit x = some d) :
    (x.toNat = 48 + d ∧ d < 10) ∨ (x.toNat = 87 + d ∧ 10 ≤ d ∧ d < 16) ∨ (x.toNat = 55 + d ∧ 10 ≤ d ∧ d < 16) := by
  unfold hexDigit at h
  split_ifs at h <;> cases h <;> omega

theorem decDigit_cases {x : Char} {d : Nat} (h : decDigit x = some d) : x.toNat = 48 + d ∧ d < 10 := by
  unfold decDigit at h
  split_ifs at h
  cases h
  omega

theorem binDigit_cases {x : Char} {d : Nat} (h : binDigit x = some d) : (x = '0' ∧ d = 0) ∨ (x = '1' ∧ d = 1) := by
  unfold binDigit at h
  split_ifs at h <;> cases h <;> simp [*]

theorem hexDigit_reads : Reads hexDigit [hexLower, hexUpper] := by
  refine ⟨fun x d => ⟨fun h => ?_, digit_of_table (by decide)⟩, by simp [hexLower, hexUpper, decTable, isSpace]⟩
  rcases hexDigit_cases h with ⟨hx, hd⟩ | ⟨hx, hlo, hhi⟩ | ⟨hx, hlo, hhi⟩
  · exact ⟨hexLower, by simp, table_get_of_toNat hx (hexLower_get_decimal d hd)⟩
  · exact ⟨hexLower, by simp, table_get_of_toNat hx (hexLower_get_letter d hhi hlo)⟩
  · exact ⟨hexUpper, by simp, table_get_of_toNat hx (hexUpper_get_letter d hhi hlo)⟩

theorem decDigit_reads : Reads decDigit [decTable] := by
  refine ⟨fun x d => ⟨fun h => ?_, digit_of_table (by decide)⟩, by simp [decTable, isSpace]⟩
  obtain ⟨hx, hd⟩ := decDigit_cases h
  exact ⟨decTable, by simp, table_get_of_toNat hx (decTable_get d hd)⟩

theorem binDigit_reads : Reads binDigit [binTable] := by
  refine ⟨fun x d => ⟨fun h => ?_, digit_of_table (by decide)⟩, by simp [binTable, isSpace]⟩
  rcases binDigit_cases h with ⟨rfl, rfl⟩ | ⟨rfl, rfl⟩
  · exact ⟨binTable, by simp, rfl⟩
  · exact ⟨binTable, by simp, rfl⟩

section
variable {digit : Char → Option Nat} {tables : List Text} (hreads : Reads digit tables)
include hreads

theorem digit_eq_none {x : Char} (h : ∀ t ∈ tables, x ∉ t) : digit x = none :=
  Option.eq_none_iff_forall_ne_some.mpr fun d hd => by
    obtain ⟨t, ht, hx⟩ := (hreads.value_iff x d).mp hd
    exact h t ht (List.mem_of_getElem? hx)

theorem digitsValue_of_spells (base : Nat) {r : Text} {ds : List Nat} (hr : r ≠ []) (h : Spells tables r ds) :
    digitsValue base digit r = .ok (Nat.ofDigits base ds.reverse) := by
  rw [digitsValue, if_neg hr, digitsOf_spells digit tables (fun x d => (hreads.value_iff x d).mpr) r ds h,
    ← positional_ofDigits]

theorem digitsValue_malformed (base : Nat) {r : Text} (h : r = [] ∨ ∃ x ∈ r, ∀ t ∈ tables, x ∉ t) :
    digitsValue base digit r = .error .format := by
  by_cases hr : r = []
  · rw [digitsValue, if_pos hr]
  · obtain ⟨x, hx, hbad⟩ := h.resolve_left hr
    rw [digitsValue, if_neg hr, digitsOf_bad digit r ⟨x, hx, digit_eq_none hreads hbad⟩]

end

/-! ### The three forms (R127) -/

theorem parseForm_hex (hex : HexOverflow) (w : Nat) (r : Text) :
    parseForm hex w (['0', 'x'] ++ r) = parseHex hex w r := by
  simp [parseForm]

theorem parseForm_bin (hex : HexOverflow) (w : Nat) (r : Text) :
    parseForm hex w (['0', 'b'] ++ r) = parseBin w r := by
  simp [parseForm]

theorem parseForm_dec (hex : HexOverflow) (w : Nat) {t : Text} (hx : ∀ r, t ≠ ['0', 'x'] ++ r)
    (hb : ∀ r, t ≠ ['0', 'b'] ++ r) : parseForm hex w t = parseDec w t := by
  have noPrefix {p : Text} (hp : ∀ r, t ≠ p ++ r) : ¬ p.isPrefixOf t = true := fun h => by
    obtain ⟨r, hr⟩ := List.isPrefixOf_iff_prefix.mp h
    exact hp r hr.symm
  rw [parseForm, if_neg (noPrefix hx), if_neg (noPrefix hb)]

/-- Between whitespace, `0x`, `0b` or another such pair and a remainder: the pair gives the token its bare start. -/
theorem parse_prefixed (hex : HexOverflow) (w : Nat) {pre r post : Text} {x : Char} (hpre : Blank pre)
    (hpost : Blank post) (hx : isSpace x = false) (hr : BareEnd r) :
    parse hex w (pre ++ (['0', x] ++ r) ++ post) = parseForm hex w (['0', x] ++ r) := by
  have hp : ∀ y ∈ ['0', x], isSpace y = false := by
    simpa [hx] using (show isSpace '0' = false by decide)
  exact parse_padded hex w hpre hpost (bareStart_append (t := ['0', x]) (by simp) (bareStart_of_noSpace hp))
    (bareEnd_append (bareEnd_of_noSpace hp) hr)

theorem parse_hex (hex : HexOverflow) (w : Nat) {pre r post : Text} (hpre : Blank pre) (hpost : Blank post)
    (hr : BareEnd r) : parse hex w (pre ++ (['0', 'x'] ++ r) ++ post) = parseHex hex w r := by
  rw [parse_prefixed hex w hpre hpost (by decide) hr, parseForm_hex]

theorem parse_bin (hex : HexOverflow) (w : Nat) {pre r post : Text} (hpre : Blank pre) (hpost : Blank post)
    (hr : BareEnd r) : parse hex w (pre ++ (['0', 'b'] ++ r) ++ post) = parseBin w r := by
  rw [parse_prefixed hex w hpre hpost (by decide) hr, parseForm_bin]

theorem parse_dec (hex : HexOverflow) (w : Nat) {pre t post : Text} (hpre : Blank pre) (hpost : Blank post)
    (hstart : BareStart t) (hend : BareEnd t) (hx : ∀ r, t ≠ ['0', 'x'] ++ r) (hb : ∀ r, t ≠ ['0', 'b'] ++ r) :
    parse hex w (pre ++ t ++ post) = parseDec w t := by
  rw [parse_padded hex w hpre hpost hstart hend, parseForm_dec hex w hx hb]

/-! ### The literals -/

/-- Settles O43: a spelled remainder has no whitespace, so trimming leaves it, and its digits have their base-16 value. -/
theorem hexLiterals : Obligations.HexLiterals := by
  refine fun hex w pre r post hpre hpost => ⟨fun ds hne hr => ?_, fun hend hbad => ?_⟩
  · have hend : BareEnd r := bareEnd_of_noSpace (spells_noSpace _ hexDigit_reads.noSpace r ds hr)
    have hval := digitsValue_of_spells hexDigit_reads 16 hne hr
    rw [parse_hex hex w hpre hpost hend]
    cases hex with
    | truncate => simp only [parseHex, hval]
    | reject => simp only [parseHex, hval]
  · have hfail := digitsValue_malformed hexDigit_reads 16 (r := r) (by simpa using hbad)
    rw [parse_hex hex w hpre hpost hend, parseHex, hfail]

/-- Settles O44: the length test of `parseBin` comes before its digits. -/
theorem binaryLiterals : Obligations.BinaryLiterals := by
  intro hex w pre r post hpre hpost hend
  rw [parse_bin hex w hpre hpost hend, parseBin]
  refine ⟨fun hlong => if_pos hlong, fun hfits ds hne hr => ?_, fun hfits hbad => ?_⟩
  · rw [if_neg hfits.not_gt, digitsValue_of_spells binDigit_reads 2 hne hr]
  · rw [if_neg hfits.not_gt, digitsValue_malformed binDigit_reads 2 (by simpa using hbad)]

/-- A text of decimal digits has no letter at its second place, so it begins with neither `0x` nor `0b`. -/
theorem ne_prefixed_of_spells_dec {t : Text} {ds : List Nat} (h : Spells [decTable] t ds) {x : Char}
    (hx : x ∉ decTable) (r : Text) : t ≠ ['0', x] ++ r := by
  rintro rfl
  match ds, h with
  | _ :: d :: _, ⟨_, hsecond, _⟩ =>
    obtain ⟨t, ht, hget⟩ := hsecond
    rw [List.mem_singleton.mp ht] at hget
    exact hx (List.mem_of_getElem? hget)

/-- Settles O45: a text of digits has no whitespace and begins with neither `0x` nor `0b`, so it is read in base 10. -/
theorem decimalLiterals : Obligations.DecimalLiterals := by
  refine fun hex w pre t post hpre hpost => ⟨fun ds hne ht => ?_, fun hstart hend hx hb hbad => ?_⟩
  · have hbare := spells_noSpace _ decDigit_reads.noSpace t ds ht
    rw [parse_dec hex w hpre hpost (bareStart_of_noSpace hbare) (bareEnd_of_noSpace hbare)
      (ne_prefixed_of_spells_dec ht (by decide)) (ne_prefixed_of_spells_dec ht (by decide)),
      parseDec, digitsValue_of_spells decDigit_reads 10 hne ht]
  · have hfail := digitsValue_malformed decDigit_reads 10 (r := t) (by simpa using hbad)
    rw [parse_dec hex w hpre hpost hstart hend hx hb, parseDec, hfail]

end Sys2Proof.Proofs.Literals
end

section
/-! A clock edge in reset, and the wire events of the startup clear (70_reset_and_hazards.md). -/

namespace Sys2Proof.Proofs.Reset

open Sys2Proof.Machine Sys2Proof.Safety

/-! ### A clock edge in reset (R190) -/

theorem clockEdge_of_rst (p : Params) {s : State} (hrst : s.rst = true) : clockEdge p s = .next (resetEdge s) :=
  if_pos hrst

theorem stepWith_of_rst (p : Params) {s : State} (hrst : s.rst = true) : stepWith p s = .next (resetEdge s) :=
  if_pos hrst

theorem inReset_resetEdge (s : State) : InReset (resetEdge s) := by
  obtain ⟨hlines, hst, hch, hsr, hcnt, hdw, hboot, hclr, -, -⟩ := resetEdge_regs s
  exact ⟨fun c => by rw [hlines, PerChannel.get_tabulate], hst, hch, hsr, hcnt, hdw, hboot, hclr⟩

theorem reqReady_of_inReset {s : State} (h : InReset s) : s.reqReady = false := by
  simp [State.reqReady, h.st]

/-- Settles O30: at either level the state reached is `resetEdge`'s, which the reset branch answers before it looks at
the request ports. -/
theorem resetEdgeState : Obligations.ResetEdgeState := fun p s hrst =>
  ⟨resetEdge s, clockEdge_of_rst p hrst, stepWith_of_rst p hrst, inReset_resetEdge s,
    reqReady_of_inReset (inReset_resetEdge s), (resetEdge_chains s).1⟩

/-! ### The rounds of the startup clear (R191) -/

/-- The startup clear is at the visit of `CLEAR_NEXT` numbered `n`, counting from 0. -/
structure ClearVisit (n : Nat) (s : State) : Prop where
  st   : s.st = .clearNext
  boot : s.boot = true
  clr  : s.clr = BitVec.ofNat 3 n

/-- The FSM states of one round of the startup clear: a visit of `CLEAR_NEXT` and a transmission on `c` (R95). -/
def roundStates (c : Channel) : Nat := 1 + (3 * c.width + 2)

theorem clearVisit_of_inReset {s : State} (h : InReset s) : ClearVisit 0 s := ⟨h.st, h.boot, h.clr⟩

/-- A transmission leaves `boot` and `clr` alone, and `boot` decides the state after it (R95). -/
theorem runTransmission_boot_clr_st (c : Channel) (v : Value) (s : State) :
    (runTransmission c v s).boot = s.boot ∧ (runTransmission c v s).clr = s.clr ∧
      (runTransmission c v s).st = afterLatHi s.boot := by
  rw [runTransmission, driveAll_eq c _ (transmitEvents_ch c v)]
  exact ⟨rfl, rfl, rfl⟩

/-- A round of the clear transmits zero on the channel its visit counts, and comes back for the next visit. -/
theorem clearVisit_round (c : Channel) {s : State} (h : ClearVisit c.index s) :
    engineTrace (roundStates c) s = transmitEvents c 0#16 ∧
      ClearVisit (c.index + 1) (engineRun (roundStates c) s) := by
  obtain ⟨hrun, htrace⟩ := engineRun_clear_one c s h.st h.clr
  obtain ⟨hboot, hclr, hst⟩ := runTransmission_boot_clr_st c 0#16 { s with clr := BitVec.ofNat 3 (c.index + 1) }
  rw [roundStates, hrun]
  exact ⟨htrace, by rw [hst, h.boot]; rfl, hboot.trans h.boot, hclr⟩

/-- The fifth visit drives no line and ends the clear. -/
theorem clearVisit_last {s : State} (h : ClearVisit 4 s) :
    engineTrace 1 s = [] ∧ (engineRun 1 s).st = .idle ∧ (engineRun 1 s).boot = false := by
  have hevent : lineEvent s = none := by simp [lineEvent, h.st]
  have hrun : engineRun 1 s = { s with boot := false, st := .idle } := by
    rw [engineRun, engineRun, engineAdvance_clearNext s h.st, clearNext, h.clr]
    rfl
  exact ⟨by simp [engineTrace, hevent], by rw [hrun], by rw [hrun]⟩

/-- Settles O31: the 181 FSM states are a round for each channel, of 51, 51, 51 and 27 states, and the fifth visit. -/
theorem startupClearEvents : Obligations.StartupClearEvents := by
  intro s hs
  obtain ⟨traceA, visitB⟩ := clearVisit_round .A (clearVisit_of_inReset hs)
  obtain ⟨traceB, visitC⟩ := clearVisit_round .B visitB
  obtain ⟨traceC, visitD⟩ := clearVisit_round .C visitC
  obtain ⟨traceD, visitLast⟩ := clearVisit_round .D visitD
  obtain ⟨traceLast, hidle, hboot⟩ := clearVisit_last visitLast
  rw [show 181 = roundStates .A + roundStates .B + roundStates .C + roundStates .D + 1 from rfl]
  simp only [engineTrace_add, engineRun_add, traceA, traceB, traceC, traceD, traceLast, List.append_nil]
  exact ⟨trivial, hidle, hboot⟩

end Sys2Proof.Proofs.Reset
end

section
/-! Request words as bytes, the opcode table, and the encoder against the decoder (30_encoding.md). -/

namespace Sys2Proof.Proofs.RequestWords

open Sys2Proof.Machine

/-! ### Three bytes (log 13) -/

/-- The third byte has no bit above bit 17 of the word exactly when it is below 4. -/
theorem strayBits_clear_iff (b : Byte) : b &&& 0xFC#8 = 0#8 ↔ b.toNat < 4 := by
  revert b
  decide

theorem decodeBytes_of_lt {b0 b1 b2 : Byte} (h : b2.toNat < 4) :
    decodeBytes [b0, b1, b2] =
      .ok (decodeWord (BitVec.ofNat 18 (b0.toNat + 256 * b1.toNat + 65536 * b2.toNat))) := by
  have hword : wordOfBytes b0 b1 b2 = BitVec.ofNat 18 (b0.toNat + 256 * b1.toNat + 65536 * b2.toNat) :=
    BitVec.eq_of_toNat_eq (by rw [wordOfBytes_toNat, BitVec.toNat_ofNat])
  rw [decodeBytes, if_pos ((strayBits_clear_iff b2).mpr h), hword]

theorem decodeBytes_of_ge {b0 b1 b2 : Byte} (h : 4 ≤ b2.toNat) : decodeBytes [b0, b1, b2] = .error .strayBits :=
  if_neg fun hclear => by
    have := (strayBits_clear_iff b2).mp hclear
    omega

theorem decodeBytes_of_short {bs : List Byte} (h : bs.length < 3) : decodeBytes bs = .error .truncated := by
  match bs, h with
  | [], _ => rfl
  | [_], _ => rfl
  | [_, _], _ => rfl

theorem decodeBytes_of_long {bs : List Byte} (h : 3 < bs.length) : decodeBytes bs = .error .overlong := by
  match bs, h with
  | _ :: _ :: _ :: _ :: _, _ => rfl

/-- Settles O7: the number of bytes decides first, then the third byte. -/
theorem malformedBytesRejected : Obligations.MalformedBytesRejected :=
  ⟨fun _ => decodeBytes_of_short, fun _ => decodeBytes_of_long, fun _ _ _ => decodeBytes_of_ge,
    fun _ _ _ => decodeBytes_of_lt⟩

/-- The bytes of a number of 18 bits decode as the word it numbers. -/
theorem decodeBytes_bytesOfNat {n : Nat} (h : n < 2 ^ 18) :
    decodeBytes (bytesOfNat n) = .ok (decodeWord (BitVec.ofNat 18 n)) := by
  have hthird : (BitVec.ofNat 8 (n / 2 ^ 16)).toNat < 4 := by
    rw [BitVec.toNat_ofNat]
    omega
  have hsum : (BitVec.ofNat 8 n).toNat + 256 * (BitVec.ofNat 8 (n / 2 ^ 8)).toNat +
      65536 * (BitVec.ofNat 8 (n / 2 ^ 16)).toNat = n := by
    simp only [BitVec.toNat_ofNat]
    omega
  rw [bytesOfNat, decodeBytes_of_lt hthird, hsum]

theorem decodeTableWord_of_lt (nbits : Nat) {n : Nat} (h : n < 2 ^ 18) :
    decodeTableWord nbits n = some (decodeWord (BitVec.ofNat 18 n)) := by
  rw [decodeTableWord, if_pos (by omega), decodeBytes_bytesOfNat h]

/-! ### The encoder and the decoder -/

theorem decodeWord_encode (i : Instr) : decodeWord (encode i) = i := by
  rw [encode, decodeWord_append, Channel.ofCode_code, Instr.transmit_self]

theorem encode_decodeWord (w : ReqWord) : encode (decodeWord w) = w := by
  rw [encode, decodeWord_eq, Instr.transmit_channel, Instr.transmit_value, Channel.code_ofCode, append_fields]

/-- Settles O1: the bytes and the table's number of an encoded request give its word back, and its two fields are the
channel's code and the value. -/
theorem decodeAfterEncode : Obligations.DecodeAfterEncode := by
  intro i
  have hword : decodeWord (BitVec.ofNat 18 (encode i).toNat) = i := by
    rw [BitVec.ofNat_toNat, BitVec.setWidth_eq, decodeWord_encode]
  refine ⟨decodeWord_encode i, ?_, fun nbits => ?_⟩
  · rw [encodeBytes, decodeBytes_bytesOfNat (encode i).isLt, hword]
  · rw [decodeTableWord_of_lt nbits (encode i).isLt, hword]

theorem wf_of_any (i : Instr) : i.wf = true := by cases i <;> rfl

/-- Settles O3: the fields of a word make it up, and `exec` answers a next state for every instruction. -/
theorem everyRequestWordLegal : Obligations.EveryRequestWordLegal := fun w =>
  ⟨wf_of_any _, encode_decodeWord w, fun s => ⟨_, exec_eq _ s⟩⟩

/-! ### The opcode table -/

/-- The row of the opcode table for a channel. -/
def rowOf (c : Channel) : OpcodeRow :=
  { mnemonic := (Instr.transmit c 0#16).mnemonic, mask := 0x30000#18, pattern := c.code ++ 0#16 }

theorem opcodeTable_eq : opcodeTable = Channel.all.map rowOf := by decide

/-- The mask keeps the field `CH` and clears the rest. -/
theorem and_mask (w : ReqWord) : w &&& 0x30000#18 = chField w ++ 0#16 := by
  have hmask : ∀ k < 18, (0x30000#18).getLsbD k = decide (16 ≤ k) := by decide
  apply BitVec.eq_of_getLsbD_eq
  intro k hk
  rw [BitVec.getLsbD_and, hmask k hk, getLsbD_fields]
  by_cases hlow : k < 16
  · simp [hlow]
  · have hfield : k - 16 < 2 := by omega
    simp [hlow, chField, hfield, Nat.add_sub_of_le (not_lt.mp hlow), not_lt.mp hlow]

theorem matches_rowOf (w : ReqWord) (c : Channel) :
    (w &&& (rowOf c).mask == (rowOf c).pattern) = (chField w == c.code) := by
  have hinj : (chField w ++ 0#16 : ReqWord) = c.code ++ 0#16 ↔ chField w = c.code :=
    ⟨fun h => by simpa only [chField_append] using congrArg chField h, fun h => by rw [h]⟩
  rw [rowOf, and_mask, Bool.eq_iff_iff, beq_iff_eq, beq_iff_eq, hinj]

theorem channel_with_code (b : BitVec 2) : Channel.all.filter (fun c => b == c.code) = [Channel.ofCode b] := by
  revert b
  decide

theorem matchingRows_eq (w : ReqWord) : matchingRows w = [rowOf (Channel.ofCode (chField w))] := by
  have hrows : (fun r : OpcodeRow => w &&& r.mask == r.pattern) ∘ rowOf = fun c => chField w == c.code :=
    funext (matches_rowOf w)
  rw [matchingRows, opcodeTable_eq, List.filter_map, hrows, channel_with_code, List.map_singleton]

theorem mnemonic_transmit (c : Channel) (v v' : Value) :
    (Instr.transmit c v).mnemonic = (Instr.transmit c v').mnemonic := by
  cases c <;> rfl

/-- Settles O5: a word matches a channel's row exactly when its `CH` is that channel's code. -/
theorem opcodeTableAgrees : Obligations.OpcodeTableAgrees := fun w =>
  ⟨_, matchingRows_eq w, by rw [decodeWord_eq]; exact mnemonic_transmit _ _ _⟩

/-- Settles O6: six closed words, evaluated. -/
theorem wordsOfTheSpec : Obligations.WordsOfTheSpec := by
  unfold Obligations.WordsOfTheSpec
  decide

end Sys2Proof.Proofs.RequestWords
end

section
/-! The stages of a chain under wire events (60_exceptions.md section 4). -/

namespace Sys2Proof.Proofs.Chains

open Sys2Proof.Machine Sys2Proof.Proofs.Memory

/-- The wire event that drives `CLK[c]` high, the only one that can shift (R179). -/
abbrev clockHigh (c : Channel) : WireEvent := { ch := c, line := .clk, level := true }

theorem react_stages (k : Chain) (l : Lines) (which : Line) (b : Bool) :
    (k.react l which b).stages =
      if which = .clk ∧ b = true ∧ l.clk = false then (k.shift l.data).stages else k.stages := by
  cases which with
  | data => rfl
  | clk => cases b <;> cases h : l.clk <;> simp [Chain.react, h]
  | lat => by_cases h : (!l.lat && b) = true <;> simp [Chain.react, Chain.commit, h]

/-- `S[c]` after a wire event: shifted if it is a rising edge of `CLK[c]`, else what it was (R179). -/
theorem drive_stages (e : WireEvent) (s : State) (c : Channel) :
    ((drive e s).chains.get c).stages =
      if e = clockHigh c ∧ s.sclk c = false then ((s.chains.get c).shift (s.sdata c)).stages
      else (s.chains.get c).stages := by
  obtain ⟨ch, line, level⟩ := e
  by_cases hc : c = ch
  · subst hc
    simp [drive, react_stages, State.sclk, State.sdata, and_assoc]
  · simp [drive, PerChannel.get_set_ne _ _ hc, Ne.symm hc]

theorem drive_stages_length (e : WireEvent) (s : State) (c : Channel) :
    ((drive e s).chains.get c).stages.length = (s.chains.get c).stages.length := by
  rw [drive_stages]
  split <;> simp

theorem drive_stages_of_ne (e : WireEvent) (s : State) (c : Channel) (h : e ≠ clockHigh c) :
    ((drive e s).chains.get c).stages = (s.chains.get c).stages := by
  simp [drive_stages, h]

theorem chain_ext {k m : Chain} (hs : k.stages = m.stages) (ho : k.outs = m.outs) : k = m := by
  cases k
  cases m
  simp_all

/-- A wire event that is no rising edge of the channel's clock or latch leaves its chain as it was (R181). -/
theorem drive_chain_of_no_rise (e : WireEvent) (s : State) (c : Channel)
    (hclk : ¬ (e = clockHigh c ∧ s.sclk c = false)) (hlat : ¬ (e = latchHigh c ∧ s.slatch c = false)) :
    (drive e s).chains.get c = s.chains.get c :=
  chain_ext (by rw [drive_stages, if_neg hclk]) (by rw [drive_outs, if_neg hlat])

theorem drive_chains_of_level_low (e : WireEvent) (s : State) (h : e.level = false) : (drive e s).chains = s.chains :=
  PerChannel.ext_get fun c => drive_chain_of_no_rise e s c (by rintro ⟨rfl, -⟩; cases h) (by rintro ⟨rfl, -⟩; cases h)

theorem clock_rise_stages {s : State} {c : Channel} (h : s.sclk c = false) :
    ((drive (clockHigh c) s).chains.get c).stages =
      (s.sdata c :: (s.chains.get c).stages).take (s.chains.get c).stages.length := by
  rw [drive_stages, if_pos ⟨rfl, h⟩]
  rfl

theorem latch_rise_chain {s : State} {c : Channel} (h : s.slatch c = false) :
    (drive (latchHigh c) s).chains.get c =
      { stages := (s.chains.get c).stages, outs := (s.chains.get c).stages } :=
  chain_ext (drive_stages_of_ne _ s c (by simp)) (by rw [drive_outs, if_pos ⟨rfl, h⟩])

/-- Settles O18: a rising clock edge puts the data level before the stages and cuts the last; the other three edges by
the laws of `drive`. -/
theorem chainShiftsAndCommits : Obligations.ChainShiftsAndCommits := by
  intro c s
  refine ⟨fun hclk => ⟨drive_outs_of_ne _ s c (by simp), drive_stages_length _ s c, fun hpos => ?_, fun k hk => ?_⟩,
    drive_chains_of_level_low _ s rfl, latch_rise_chain, drive_chains_of_level_low _ s rfl⟩
  · rw [clock_rise_stages hclk, List.getElem?_take_of_lt hpos, List.getElem?_cons_zero]
  · rw [clock_rise_stages hclk, List.getElem?_take_of_lt hk, List.getElem?_cons_succ]

/-- Settles O19: the contrapositive of `drive_chain_of_no_rise`; a reset edge drives no line. -/
theorem nothingElseChangesChain : Obligations.NothingElseChangesChain := by
  refine ⟨fun e s c hne => ?_, fun s => (resetEdge_chains s).1⟩
  by_contra hno
  obtain ⟨hclk, hlat⟩ := not_or.mp hno
  exact hne (drive_chain_of_no_rise e s c hclk hlat)

end Sys2Proof.Proofs.Chains
end

section
/-! What an instruction leaves: the delivered value and the frame (20_memory.md, 40_transmit.md sections 1 and 2). -/

namespace Sys2Proof.Proofs.Delivery

open Sys2Proof.Machine Sys2Proof.Safety

/-! ### A chain of the channel's width (R89) -/

theorem runTransmission_eq_delivered {c : Channel} (v : Value) {s : State} (hclk : s.sclk c = false)
    (hlen : DefaultLength s c) : runTransmission c v s = delivered c v s := by
  rw [runTransmission_eq c v s hclk, Chain.afterTransmission_width _ _ v hlen]
  rfl

theorem exec_eq_delivered (i : Instr) {s : State} (hclk : s.sclk i.channel = false)
    (hlen : DefaultLength s i.channel) : exec i s = .next (delivered i.channel i.value s) := by
  rw [exec_eq, runTransmission_eq_delivered _ hclk hlen]

/-- Settles O9: the transmission is computed by `runTransmission_eq`, and a chain of the width holds just the value. -/
theorem everyInstructionCompletes : Obligations.EveryInstructionCompletes := fun v _ =>
  ⟨exec_eq_delivered (.txA v), exec_eq_delivered (.txB v), exec_eq_delivered (.txC v), exec_eq_delivered (.txD v)⟩

theorem delivered_chain (c : Channel) (v : Value) (s : State) :
    (delivered c v s).chains.get c = { stages := bitsLsbFirst c.width v, outs := bitsLsbFirst c.width v } :=
  PerChannel.get_set_self _ _ _

theorem delivered_sclk (c : Channel) (v : Value) (s : State) : (delivered c v s).sclk c = false := by
  simp [delivered, State.sclk]

theorem delivered_defaultLength (c : Channel) (v : Value) (s : State) : DefaultLength (delivered c v s) c := by
  rw [DefaultLength, delivered_chain, bitsLsbFirst_length]

/-- The same value delivered again finds its own lines and chain. -/
theorem delivered_twice (c : Channel) (v : Value) (s : State) :
    (delivered c v (delivered c v s)).chains = (delivered c v s).chains ∧
      (delivered c v (delivered c v s)).lines = (delivered c v s).lines :=
  ⟨PerChannel.set_set _ _ _ _, PerChannel.set_set _ _ _ _⟩

/-- Settles O16: what is delivered to the channel's chain depends on the value alone. -/
theorem transmissionOverwrites : Obligations.TransmissionOverwrites := by
  intro i s s' hclk hclk' hlen hlen'
  refine ⟨_, _, exec_eq_delivered i hclk hlen, exec_eq_delivered i hclk' hlen', ?_, _,
    exec_eq_delivered i (delivered_sclk _ _ _) (delivered_defaultLength _ _ _), delivered_twice _ _ _⟩
  rw [delivered_chain, delivered_chain]

/-! ### A chain of any length (R44) -/

theorem afterTransmission_get (k : Chain) (w : Nat) (v : Value) {j : Nat} (hj : j < k.stages.length) :
    (k.afterTransmission w v).stages[j]? = if j < w then some (v.getLsbD j) else k.stages[j - w]? := by
  rw [Chain.afterTransmission, List.getElem?_take_of_lt hj]
  split
  next hw =>
    rw [List.getElem?_append_left (by simpa using hw)]
    simp [bitsLsbFirst, hw]
  next hw => rw [List.getElem?_append_right (by simpa using hw), bitsLsbFirst_length]

theorem afterTransmission_length (k : Chain) (w : Nat) (v : Value) :
    (k.afterTransmission w v).stages.length = k.stages.length := by
  simp [Chain.afterTransmission]

theorem runTransmission_chain {c : Channel} (v : Value) {s : State} (hclk : s.sclk c = false) :
    (runTransmission c v s).chains.get c = (s.chains.get c).afterTransmission c.width v := by
  rw [runTransmission_eq c v s hclk]
  exact PerChannel.get_set_self _ _ _

/-- Settles O10: the stages are the value's bits before the old stages, cut to the chain's length. -/
theorem placementInAnyChain : Obligations.PlacementInAnyChain := by
  intro i s hclk
  refine ⟨_, exec_eq i s, ?_⟩
  rw [runTransmission_chain _ hclk]
  exact ⟨afterTransmission_length _ _ _, fun k hk => afterTransmission_get _ _ _ hk, rfl⟩

/-! ### What a transmission leaves alone -/

theorem runTransmission_eq_setLane (c : Channel) (v : Value) (s : State) :
    runTransmission c v s = finishTransmission
      ((loadTransmission c v s).setLane c ((transmitEvents c v).foldl laneStep (s.lane c))) := by
  rw [runTransmission, driveAll_eq c _ (transmitEvents_ch c v)]
  rfl

theorem runTransmission_lane_of_ne {c e : Channel} (h : e ≠ c) (v : Value) (s : State) :
    (runTransmission c v s).lane e = s.lane e := by
  rw [runTransmission_eq_setLane]
  exact Memory.setLane_lane_of_ne (loadTransmission c v s) _ h

theorem runTransmission_sameOutside (c : Channel) (v : Value) (s : State) :
    SameOutside s (runTransmission c v s) := by
  rw [runTransmission_eq_setLane]
  exact ⟨rfl, rfl, rfl, rfl, rfl, rfl, rfl, rfl⟩

theorem runTransmission_regs (c : Channel) (v : Value) (s : State) :
    (runTransmission c v s).ch = c ∧ (runTransmission c v s).sr = v ∧ (runTransmission c v s).cnt = 0#5 ∧
      (runTransmission c v s).dw = 0 ∧ (runTransmission c v s).st = afterLatHi s.boot := by
  rw [runTransmission_eq_setLane]
  exact ⟨rfl, rfl, rfl, rfl, rfl⟩

/-- Settles O15: loading and finishing write engine registers only, and the events of one channel act on that channel. -/
theorem transmissionFrame : Obligations.TransmissionFrame := by
  intro i s t h
  obtain rfl : runTransmission i.channel i.value s = t := by
    rw [exec_eq] at h
    exact Host.Outcome.next.inj h
  obtain ⟨hrst, hvalid, hch, hvalue, hheld, hfe, hrx, htx⟩ := runTransmission_sameOutside i.channel i.value s
  obtain ⟨hboot, hclr, -⟩ := Reset.runTransmission_boot_clr_st i.channel i.value s
  refine ⟨fun e he => ?_, hboot, hclr, hrst, hvalid, hch, hvalue, hheld, hfe, hrx, htx, runTransmission_regs _ _ s⟩
  have hlane := runTransmission_lane_of_ne he i.value s
  exact ⟨congrArg Prod.fst hlane, congrArg Prod.snd hlane⟩

/-! ### The bits a channel transmits -/

theorem bitsMsbFirst_congr {w : Nat} {v v' : Value} (h : ∀ k, k < w → v.getLsbD k = v'.getLsbD k) :
    bitsMsbFirst w v = bitsMsbFirst w v' := by
  induction w with
  | zero => rfl
  | succ w ih => rw [bitsMsbFirst, bitsMsbFirst, h w w.lt_succ_self, ih fun k hk => h k (Nat.lt_succ_of_lt hk)]

/-- Values that agree below the channel's width drive the same events and differ in `sr` alone (R62). -/
theorem runTransmission_congr {c : Channel} {v v' : Value} (h : ∀ k, k < c.width → v.getLsbD k = v'.getLsbD k)
    (s : State) : runTransmission c v' s = { runTransmission c v s with sr := v' } := by
  have hevents : transmitEvents c v' = transmitEvents c v := by
    rw [transmitEvents, transmitEvents, bitsMsbFirst_congr h]
  rw [runTransmission_eq_setLane, runTransmission_eq_setLane, hevents]
  rfl

/-- Settles O17: TX_D is the transmission on the channel of width 8. -/
theorem highValueBitsIgnoredOnD : Obligations.HighValueBitsIgnoredOnD := by
  intro v v' s h
  obtain ⟨-, hsr, -⟩ := runTransmission_regs .D v s
  exact ⟨runTransmission .D v s, rfl, hsr, congrArg Host.Outcome.next (runTransmission_congr (c := .D) h s)⟩

/-! ### The select fields (R140) -/

theorem four_mul_fields {c : Channel} (h : c ≠ .C) : 4 * c.fields = c.width := by
  cases c <;> first | rfl | exact absurd rfl h

/-- Four consecutive bits of a value in a chain of `w` stages. -/
theorem bitsLsbFirst_nibble (v : Value) {w i : Nat} (h : 4 * i + 4 ≤ w) :
    ((bitsLsbFirst w v).drop (4 * i)).take 4 =
      [v.getLsbD (4 * i), v.getLsbD (4 * i + 1), v.getLsbD (4 * i + 2), v.getLsbD (4 * i + 3)] := by
  have hrange : ((List.range w).drop (4 * i)).take 4 = [4 * i, 4 * i + 1, 4 * i + 2, 4 * i + 3] := by
    rw [List.range_eq_range', List.drop_range', List.take_range'_of_length_ge (by omega)]
    simp [List.range']
  rw [bitsLsbFirst, ← List.map_drop, ← List.map_take, hrange]
  rfl

/-- Settles O54: the outputs are the value's bits, and field `i` is the four of them at `4i`. -/
theorem selectFieldsAtOutputs : Obligations.SelectFieldsAtOutputs := by
  intro c v s hclk hlen hne
  refine ⟨delivered c v s, ?_, fun i hi => ⟨_, Fields.decompose_get v hi, ?_⟩⟩
  · rw [exec_eq, Instr.transmit_channel, Instr.transmit_value, runTransmission_eq_delivered v hclk hlen]
  · have hwidth := four_mul_fields hne
    rw [State.selectField, delivered_chain, bitsLsbFirst_nibble v (by omega)]
    simp

end Sys2Proof.Proofs.Delivery
end

section
/-! The invariant of the block: kept by every FSM state, every clock cycle and every accepted request (R14, R95, R96). -/

namespace Sys2Proof.Proofs.EngineInvariant

open Sys2Proof.Machine Sys2Proof.Safety Sys2Proof.Proofs.Memory Sys2Proof.Proofs.Transmit Sys2Proof.Proofs.Chains

/-! ### What the invariant depends on -/

/-- The invariant of the block speaks of the block and the chains only. -/
theorem engineInv_of_sameBlock {s t : State} (h : EngineInv s) (hst : SameBlock s t) : EngineInv t := by
  obtain ⟨hlines, hst, hch, hsr, hcnt, hdw, hboot, hclr, -, hchains⟩ := hst
  cases s
  cases t
  simp only at hlines hst hch hsr hcnt hdw hboot hclr hchains
  subst hlines hst hch hsr hcnt hdw hboot hclr hchains
  exact ⟨h.lengths, h.booted, h.clrBound, h.idle, h.clearing, h.clears, h.count, h.noDwell, h.clkHigh, h.latOpen,
    h.latClosed, h.latIdle, h.committed⟩

theorem not_transmitting_cases {s : State} (h : ¬ Transmitting s) : s.st = .idle ∨ s.st = .clearNext := by
  rw [Transmitting, not_and_or, not_not, not_not] at h
  exact h

theorem fsmCycle_clearNext (d : Nat) {s : State} (hst : s.st = .clearNext) : fsmCycle d s = clearNext s := by
  rw [fsmCycle, hst]

theorem fsmCycle_idle (d : Nat) {s : State} (hst : s.st = .idle) :
    fsmCycle d s = if s.reqValid then loadTransmission (Channel.ofCode s.reqCh) s.reqValue s else s := by
  rw [fsmCycle, hst]

theorem engineAdvance_idle {s : State} (hst : s.st = .idle) : engineAdvance s = s := by
  simp [engineAdvance, writeLine, lineEvent, transition, hst]

/-- Once a state has made its line write, its pulse is that of `CLK_HI` alone. -/
theorem pulseHigh_iff_of_dwelling {s : State} (h : 0 < s.dw) : PulseHigh s ↔ s.st = .clkHi := by
  simp [PulseHigh, h, h.ne']

theorem windowOpen_iff_of_dwelling {s : State} (h : 0 < s.dw) : WindowOpen s ↔ Transmitting s ∧ s.st ≠ .latHi := by
  simp only [WindowOpen, Transmitting, h, h.ne']
  cases s.st <;> simp

theorem countOf_iff_zero {s : State} (h : ¬ Transmitting s ∨ s.st = .latHi) : CountOf s ↔ s.cnt = 0#5 := by
  unfold Transmitting at h
  unfold CountOf
  cases hst : s.st <;> simp_all

/-! ### The line write -/

theorem lineEvent_ch {s : State} {e : WireEvent} (h : lineEvent s = some e) : e.ch = s.ch := by
  unfold lineEvent at h
  cases hst : s.st <;> simp only [hst] at h <;> cases h <;> rfl

/-- A line write is one event on the channel in progress, or nothing. -/
theorem writeLine_cases (s : State) :
    writeLine s = s ∨ ∃ e, lineEvent s = some e ∧ s.dw = 0 ∧ writeLine s = drive e s := by
  unfold writeLine
  split
  next h0 =>
    cases h : lineEvent s with
    | none => exact .inl rfl
    | some e => exact .inr ⟨e, rfl, h0, rfl⟩
  next => exact .inl rfl

theorem writeLine_lane_of_ne {s : State} {c : Channel} (h : c ≠ s.ch) : (writeLine s).lane c = s.lane c := by
  rcases writeLine_cases s with hw | ⟨e, he, -, hw⟩
  · rw [hw]
  · rw [hw, drive_eq, lineEvent_ch he, setLane_lane_of_ne s _ h]

theorem writeLine_lengths {s : State} {c : Channel}
    (h : (s.chains.get c).outs.length = (s.chains.get c).stages.length) :
    ((writeLine s).chains.get c).outs.length = ((writeLine s).chains.get c).stages.length := by
  rcases writeLine_cases s with hw | ⟨e, -, -, hw⟩
  · rw [hw, h]
  · rw [hw, drive_stages_length, drive_outs]
    split <;> [rfl; exact h]

section
variable {s : State} (h : EngineInv s) (ht : Transmitting s)
include h ht

/-- After the line write the clock is high in `CLK_HI` alone (R83, R95). -/
theorem writeLine_sclk_iff (c : Channel) : (writeLine s).sclk c = true ↔ c = s.ch ∧ s.st = .clkHi := by
  by_cases hc : c = s.ch
  · subst hc
    have hclk := h.clkHigh s.ch
    by_cases h0 : s.dw = 0
    · obtain ⟨hne, hnc⟩ := ht
      simp only [PulseHigh, h0] at hclk
      cases hst : s.st <;> simp_all [writeLine, lineEvent, drive_sclk]
    · rw [pulseHigh_iff_of_dwelling (Nat.pos_of_ne_zero h0)] at hclk
      rw [writeLine, if_neg h0, hclk]
  · have hlane : (writeLine s).sclk c = s.sclk c := congrArg (·.1.clk) (writeLine_lane_of_ne hc)
    rw [hlane, h.clkHigh c]
    simp [hc]

/-- After the line write the latch is high in `LAT_HI` alone (R84, R85). -/
theorem writeLine_slatch : (writeLine s).slatch s.ch = decide (s.st = .latHi) := by
  by_cases h0 : s.dw = 0
  · have hopen := h.latOpen
    obtain ⟨hne, hnc⟩ := ht
    simp only [WindowOpen, h0] at hopen
    cases hst : s.st <;> simp_all [writeLine, lineEvent, drive_slatch]
  · have hpos := Nat.pos_of_ne_zero h0
    rw [writeLine, if_neg h0]
    by_cases hst : s.st = .latHi
    · simpa [hst] using (h.latClosed hst hpos).1
    · simpa [hst] using h.latOpen ((windowOpen_iff_of_dwelling hpos).mpr ⟨ht, hst⟩)

omit ht in
/-- The line write of `LAT_HI` commits (R180). -/
theorem writeLine_committed (hst : s.st = .latHi) :
    ((writeLine s).chains.get s.ch).outs = ((writeLine s).chains.get s.ch).stages := by
  by_cases h0 : s.dw = 0
  · have hlow : s.slatch s.ch = false := h.latOpen (by simp [WindowOpen, hst, h0])
    rw [writeLine, if_pos h0]
    simp only [lineEvent, hst]
    rw [latch_rise_chain hlow]
  · rw [writeLine, if_neg h0]
    exact (h.latClosed hst (Nat.pos_of_ne_zero h0)).2

end

/-! ### One cycle inside a wire-event state -/

/-- A wire-event state after its line write, `n` cycles into its dwell (R96). -/
def dwelling (n : Nat) (s : State) : State := { writeLine s with dw := n }

theorem dwelling_regs (n : Nat) (s : State) :
    (dwelling n s).st = s.st ∧ (dwelling n s).ch = s.ch ∧ (dwelling n s).sr = s.sr ∧ (dwelling n s).cnt = s.cnt ∧
      (dwelling n s).boot = s.boot ∧ (dwelling n s).clr = s.clr := by
  obtain ⟨hst, hch, hsr, hcnt, -, hboot, hclr⟩ := writeLine_regs s
  exact ⟨hst, hch, hsr, hcnt, hboot, hclr⟩

theorem engineInv_dwelling {s : State} (h : EngineInv s) (ht : Transmitting s) (n : Nat) :
    EngineInv (dwelling (n + 1) s) := by
  obtain ⟨hst, hch, hsr, hcnt, hboot, hclr⟩ := dwelling_regs (n + 1) s
  have hpos : 0 < (dwelling (n + 1) s).dw := n.succ_pos
  have ht' : Transmitting (dwelling (n + 1) s) := by rwa [Transmitting, hst]
  have other {c : Channel} (hc : ¬ Active (dwelling (n + 1) s) c) :
      ¬ Active s c ∧ (dwelling (n + 1) s).lane c = s.lane c := by
    have hne : c ≠ s.ch := fun he => hc ⟨ht', he.trans hch.symm⟩
    exact ⟨fun ha => hne ha.2, writeLine_lane_of_ne hne⟩
  constructor
  case lengths => exact fun c => writeLine_lengths (h.lengths c)
  case booted => rw [hboot, hclr]; exact h.booted
  case clrBound => rw [hclr]; exact h.clrBound
  case idle => rw [hst, hboot]; exact h.idle
  case clearing => rw [hst, hboot]; exact h.clearing
  case clears => rw [hboot, hclr, hch, hsr]; exact fun hb _ => h.clears hb ht
  case count => unfold CountOf; rw [hst, hcnt, hch]; exact h.count
  case noDwell => exact fun hno => absurd ht' hno
  case clkHigh =>
    intro c
    rw [pulseHigh_iff_of_dwelling hpos, hch, hst]
    exact writeLine_sclk_iff h ht c
  case latOpen =>
    rw [windowOpen_iff_of_dwelling hpos, hst, hch]
    exact fun hopen => (writeLine_slatch h ht).trans (by simp [hopen.2])
  case latClosed =>
    rw [hst, hch]
    exact fun hlat _ => ⟨(writeLine_slatch h ht).trans (by simp [hlat]), writeLine_committed h hlat⟩
  case latIdle =>
    intro c hc
    obtain ⟨hc', hlane⟩ := other hc
    have hlat : (dwelling (n + 1) s).slatch c = s.slatch c := congrArg (·.1.lat) hlane
    rw [hlat, Cleared, hboot, hclr]
    exact h.latIdle c hc'
  case committed =>
    intro c hc
    obtain ⟨hc', hlane⟩ := other hc
    have hchain : (dwelling (n + 1) s).chains.get c = s.chains.get c := congrArg Prod.snd hlane
    rw [hchain, Cleared, hboot, hclr]
    exact h.committed c hc'

/-! ### The end of a wire-event state -/

section
variable {s : State} (h : EngineInv s) (ht : Transmitting s) (hpos : 0 < s.dw)
include h ht hpos

/-- From one wire-event state, its line write done, to another: only the bit counter needs an argument. -/
theorem engineInv_advance (st : EngineState) (n : BitVec 5) (hfrom : s.st ≠ .latHi) (hidle : st ≠ .idle)
    (hclear : st ≠ .clearNext) (hpulse : st = .clkLo ↔ s.st = .clkHi)
    (hcount : CountOf { s with st := st, cnt := n, dw := 0 }) : EngineInv { s with st := st, cnt := n, dw := 0 } := by
  have ht' : Transmitting { s with st := st, cnt := n, dw := 0 } := ⟨hidle, hclear⟩
  have hno {c : Channel} (hc : ¬ Active { s with st := st, cnt := n, dw := 0 } c) : ¬ Active s c :=
    fun ha => hc ⟨ht', ha.2⟩
  constructor
  case lengths => exact h.lengths
  case booted => exact h.booted
  case clrBound => exact h.clrBound
  case idle => exact fun hi => absurd hi hidle
  case clearing => exact fun hi => absurd hi hclear
  case clears => exact fun hb _ => h.clears hb ht
  case count => exact hcount
  case noDwell => exact fun _ => rfl
  case clkHigh =>
    intro c
    have hnew : PulseHigh { s with st := st, cnt := n, dw := 0 } ↔ s.st = .clkHi := by simp [PulseHigh, hpulse]
    rw [hnew, ← pulseHigh_iff_of_dwelling hpos]
    exact h.clkHigh c
  case latOpen => exact fun _ => h.latOpen ((windowOpen_iff_of_dwelling hpos).mpr ⟨ht, hfrom⟩)
  case latClosed => exact fun _ hlt => absurd hlt (lt_irrefl 0)
  case latIdle => exact fun c hc => h.latIdle c (hno hc)
  case committed => exact fun c hc => h.committed c (hno hc)

/-- The end of a transmission: the channel is committed, and cleared if the startup clear runs (R95, R191). -/
theorem engineInv_afterLatHi (hst : s.st = .latHi) : EngineInv { s with st := afterLatHi s.boot, dw := 0 } := by
  obtain ⟨hlat, hcommitted⟩ := h.latClosed hst hpos
  have hstop : ¬ Transmitting { s with st := afterLatHi s.boot, dw := 0 } := by
    cases hb : s.boot <;> simp [Transmitting, afterLatHi]
  have hcleared : Cleared s s.ch := by
    cases hb : s.boot with
    | false => exact .inl hb
    | true => exact .inr (by rw [(h.clears hb ht).1]; exact Nat.lt_succ_self _)
  constructor
  case lengths => exact h.lengths
  case booted => exact h.booted
  case clrBound => exact h.clrBound
  case idle => cases hb : s.boot <;> simp [afterLatHi]
  case clearing => cases hb : s.boot <;> simp [afterLatHi]
  case clears => exact fun _ hno => absurd hno hstop
  case count => exact (countOf_iff_zero (.inl hstop)).mpr ((countOf_iff_zero (.inr hst)).mp h.count)
  case noDwell => exact fun _ => rfl
  case clkHigh =>
    intro c
    have hlow : ¬ s.sclk c = true := by
      rw [h.clkHigh c, pulseHigh_iff_of_dwelling hpos, hst]
      simp
    have hno : ¬ PulseHigh { s with st := afterLatHi s.boot, dw := 0 } := by
      cases hb : s.boot <;> simp [PulseHigh, afterLatHi]
    exact ⟨fun hhigh => absurd hhigh hlow, fun hp => absurd hp.2 hno⟩
  case latOpen => cases hb : s.boot <;> simp [WindowOpen, afterLatHi]
  case latClosed => exact fun _ hlt => absurd hlt (lt_irrefl 0)
  case latIdle =>
    intro c _
    by_cases hc : c = s.ch
    · subst hc
      exact ⟨fun _ => hcleared, fun _ => hlat⟩
    · exact h.latIdle c fun ha => hc ha.2
  case committed =>
    intro c _
    by_cases hc : c = s.ch
    · subst hc
      exact fun _ => hcommitted
    · exact h.committed c fun ha => hc ha.2

theorem engineInv_transition : EngineInv (transition s) := by
  have hcount := h.count
  obtain ⟨hne, hnc⟩ := id ht
  unfold CountOf at hcount
  unfold transition
  cases hst : s.st with
  | clearNext => exact absurd hst hnc
  | idle => exact absurd hst hne
  | latLo =>
    rw [hst] at hcount
    have hbits : 1 ≤ s.cnt.toNat ∧ s.cnt.toNat ≤ s.ch.width := ⟨hcount ▸ s.ch.width_pos, hcount.le⟩
    exact engineInv_advance h ht hpos .setData s.cnt (by simp [hst]) (by simp) (by simp) (by simp [hst]) hbits
  | setData =>
    rw [hst] at hcount
    exact engineInv_advance h ht hpos .clkHi s.cnt (by simp [hst]) (by simp) (by simp) (by simp [hst]) hcount
  | clkHi =>
    rw [hst] at hcount
    exact engineInv_advance h ht hpos .clkLo s.cnt (by simp [hst]) (by simp) (by simp) (by simp [hst]) hcount
  | clkLo =>
    rw [hst] at hcount
    have hdown : (s.cnt - 1#5).toNat = s.cnt.toNat - 1 :=
      BitVec.toNat_sub_of_le (by simpa [BitVec.le_def] using hcount.1)
    by_cases hz : s.cnt - 1#5 = 0#5
    · simp only [hz, if_true]
      exact engineInv_advance h ht hpos .latHi 0#5 (by simp [hst]) (by simp) (by simp) (by simp [hst]) rfl
    · have hleft : (s.cnt - 1#5).toNat ≠ 0 := fun h0 => hz (BitVec.eq_of_toNat_eq h0)
      have hbits : 1 ≤ (s.cnt - 1#5).toNat ∧ (s.cnt - 1#5).toNat ≤ s.ch.width := by omega
      simp only [hz, if_false]
      exact engineInv_advance h ht hpos .setData _ (by simp [hst]) (by simp) (by simp) (by simp [hst]) hbits
  | latHi => exact engineInv_afterLatHi h ht hpos hst

end

/-! ### A transmission loaded (R94, R191) -/

section
variable {s : State} (h : EngineInv s) (hidle : ¬ Transmitting s)
include h hidle

/-- Between transmissions every clock is low. -/
theorem sclk_low_of_not_transmitting (c : Channel) : s.sclk c = false := by
  rw [Bool.eq_false_iff]
  intro hhigh
  obtain ⟨-, ⟨hst, -⟩ | ⟨hst, -⟩⟩ := (h.clkHigh c).mp hhigh
  · exact hidle (by simp [Transmitting, hst])
  · exact hidle (by simp [Transmitting, hst])

/-- Loading a transmission on `c`, `clr` moving past `c` where the startup clear loads it. -/
theorem engineInv_load (c : Channel) (v : Value) (n : BitVec 3) (hbound : n.toNat ≤ 4)
    (hbooted : s.boot = false → n = 4#3) (hboot : s.boot = true → n.toNat = c.index + 1 ∧ v = 0#16)
    (hothers : ∀ e, e ≠ c → (Cleared { s with clr := n } e ↔ Cleared s e)) :
    EngineInv (loadTransmission c v { s with clr := n }) := by
  have hkept {e : Channel} (he : ¬ Active (loadTransmission c v { s with clr := n }) e) :
      Cleared (loadTransmission c v { s with clr := n }) e ↔ Cleared s e :=
    hothers e fun hc => he ⟨⟨by simp [loadTransmission], by simp [loadTransmission]⟩, hc⟩
  have hfree (e : Channel) : ¬ Active s e := fun ha => hidle ha.1
  constructor
  case lengths => exact h.lengths
  case booted => exact hbooted
  case clrBound => exact hbound
  case idle => simp [loadTransmission]
  case clearing => simp [loadTransmission]
  case clears => exact fun hb _ => hboot hb
  case count => exact c.width_toNat
  case noDwell => exact fun _ => rfl
  case clkHigh =>
    intro e
    have hlow : (loadTransmission c v { s with clr := n }).sclk e = false := sclk_low_of_not_transmitting h hidle e
    have hno : ¬ PulseHigh (loadTransmission c v { s with clr := n }) := by simp [PulseHigh, loadTransmission]
    exact ⟨fun hhigh => absurd (hlow.symm.trans hhigh) Bool.false_ne_true, fun hp => absurd hp.2 hno⟩
  case latOpen => simp [WindowOpen, loadTransmission]
  case latClosed => simp [loadTransmission]
  case latIdle => exact fun e he => (h.latIdle e (hfree e)).trans (hkept he).symm
  case committed => exact fun e he hcl => h.committed e (hfree e) ((hkept he).mp hcl)

end

theorem engineInv_accept {s : State} (h : EngineInv s) (hst : s.st = .idle) (c : Channel) (v : Value) :
    EngineInv (loadTransmission c v s) := by
  have hboot := h.idle hst
  have hidle : ¬ Transmitting s := fun ht => ht.1 hst
  exact engineInv_load h hidle c v s.clr h.clrBound h.booted (fun hb => by simp [hboot] at hb) fun _ _ => Iff.rfl

/-- The number of a channel in the register `clr`. -/
theorem toNat_clr_of_le {n : Nat} (h : n ≤ 4) : (BitVec.ofNat 3 n).toNat = n := by
  rw [BitVec.toNat_ofNat]
  omega

theorem index_injective {c e : Channel} (h : c.index = e.index) : c = e := by
  rw [← Channel.ofCode_code c, ← Channel.ofCode_code e]
  exact congrArg Channel.ofCode (BitVec.eq_of_toNat_eq (by rw [Channel.code_index, Channel.code_index, h]))

/-- What `clr` can hold: 4, or the number of the channel to clear next. -/
theorem clr_cases {n : BitVec 3} (h : n.toNat ≤ 4) : n = 4#3 ∨ ∃ c : Channel, n = BitVec.ofNat 3 c.index := by
  have hall : ∀ n : BitVec 3, n.toNat ≤ 4 → n = 4#3 ∨ n = BitVec.ofNat 3 (Channel.ofCode (n.setWidth 2)).index := by
    decide
  exact (hall n h).imp_right fun he => ⟨_, he⟩

theorem clearNext_end {s : State} (hclr : s.clr = 4#3) : clearNext s = { s with boot := false, st := .idle } := by
  rw [clearNext, hclr]
  rfl

/-- The visit of `CLEAR_NEXT` that ends the startup clear: every channel was cleared. -/
theorem engineInv_clearNext_end {s : State} (h : EngineInv s) (hst : s.st = .clearNext) (hclr : s.clr = 4#3) :
    EngineInv { s with boot := false, st := .idle } := by
  have hidle : ¬ Transmitting s := fun ht => ht.2 hst
  have hfree (e : Channel) : ¬ Active s e := fun ha => hidle ha.1
  have hcleared (e : Channel) : Cleared s e := .inr (by rw [hclr]; exact e.index_lt)
  constructor
  case lengths => exact h.lengths
  case booted => exact fun _ => hclr
  case clrBound => exact h.clrBound
  case idle => exact fun _ => rfl
  case clearing => simp
  case clears => simp
  case count => exact (countOf_iff_zero (.inl hidle)).mp h.count
  case noDwell => exact fun _ => h.noDwell hidle
  case clkHigh =>
    intro e
    have hno : ¬ PulseHigh { s with boot := false, st := .idle } := by simp [PulseHigh]
    exact ⟨fun hhigh => absurd ((sclk_low_of_not_transmitting h hidle e).symm.trans hhigh) Bool.false_ne_true,
      fun hp => absurd hp.2 hno⟩
  case latOpen => simp [WindowOpen]
  case latClosed => simp
  case latIdle => exact fun e _ => ⟨fun _ => .inl rfl, fun _ => (h.latIdle e (hfree e)).mpr (hcleared e)⟩
  case committed => exact fun e _ _ => h.committed e (hfree e) (hcleared e)

theorem engineInv_clearNext {s : State} (h : EngineInv s) (hst : s.st = .clearNext) : EngineInv (clearNext s) := by
  have hidle : ¬ Transmitting s := fun ht => ht.2 hst
  have hboot := h.clearing hst
  rcases clr_cases h.clrBound with hclr | ⟨c, hclr⟩
  · rw [clearNext_end hclr]
    exact engineInv_clearNext_end h hst hclr
  · have hindex := c.index_lt
    have hnext := toNat_clr_of_le (n := c.index + 1) hindex
    rw [clearNext_load c s hclr]
    refine engineInv_load h hidle c _ _ (hnext.trans_le hindex) (fun hb => by simp [hboot] at hb)
      (fun _ => ⟨hnext, rfl⟩) fun e he => ?_
    have hne : e.index ≠ c.index := fun heq => he (index_injective heq)
    have hlt : e.index < c.index + 1 ↔ e.index < c.index := by omega
    rw [Cleared, Cleared, hclr, toNat_clr_of_le hindex.le, hnext, hlt]

/-! ### Every move of the engine -/

/-- The transition of R95 from a state in its dwell: what the line write leaves, and `dw` reset. -/
theorem engineAdvance_eq_transition {s : State} (ht : Transmitting s) (n : Nat) :
    engineAdvance s = transition (dwelling n s) := by
  have hst := writeLine_st s
  obtain ⟨hne, hnc⟩ := ht
  unfold engineAdvance dwelling transition
  cases h : s.st <;> simp_all

theorem engineInv_engineAdvance {s : State} (h : EngineInv s) : EngineInv (engineAdvance s) := by
  by_cases ht : Transmitting s
  · have ht' : Transmitting (dwelling 1 s) := by rwa [Transmitting, (dwelling_regs 1 s).1]
    rw [engineAdvance_eq_transition ht 1]
    exact engineInv_transition (engineInv_dwelling h ht 0) ht' Nat.one_pos
  · rcases not_transmitting_cases ht with hst | hst
    · rwa [engineAdvance_idle hst]
    · rw [engineAdvance_clearNext s hst]
      exact engineInv_clearNext h hst

theorem engineInv_engineRun {s : State} (h : EngineInv s) (n : Nat) : EngineInv (engineRun n s) := by
  induction n generalizing s with
  | zero => exact h
  | succ n ih => exact ih (engineInv_engineAdvance h)

/-- A whole request is FSM states, each of which keeps the invariant (R80, R95). -/
theorem engineInv_runTransmission {s : State} (h : EngineInv s) (hst : s.st = .idle) (c : Channel) (v : Value) :
    EngineInv (runTransmission c v s) := by
  rw [← (engineRun_transmission c v s).1]
  exact engineInv_engineRun (engineInv_accept h hst c v) _

theorem engineInv_dwellCycle {s : State} (h : EngineInv s) (ht : Transmitting s) (d : Nat) :
    EngineInv (dwellCycle d s) := by
  unfold dwellCycle
  split
  · exact engineInv_dwelling h ht s.dw
  · exact engineInv_engineAdvance h

theorem engineInv_fsmCycle {s : State} (h : EngineInv s) (d : Nat) : EngineInv (fsmCycle d s) := by
  by_cases ht : Transmitting s
  · rw [fsmCycle_transmitting d s ht]
    exact engineInv_dwellCycle h ht d
  · rcases not_transmitting_cases ht with hst | hst
    · rw [fsmCycle_idle d hst]
      split
      · exact engineInv_accept h hst _ _
      · exact h
    · rw [fsmCycle_clearNext d hst]
      exact engineInv_clearNext h hst

/-! ### Reset -/

/-- The reset column has the invariant, whatever the chains hold, their two lists being of one length (R22, R190). -/
theorem engineInv_of_inReset {s : State} (h : InReset s)
    (hlen : ∀ c, (s.chains.get c).outs.length = (s.chains.get c).stages.length) : EngineInv s := by
  have hidle : ¬ Transmitting s := fun ht => ht.2 h.st
  have hnot (c : Channel) : ¬ Cleared s c := by simp [Cleared, h.boot, h.clr]
  constructor
  case lengths => exact hlen
  case booted => simp [h.boot]
  case clrBound => simp [h.clr]
  case idle => simp [h.st]
  case clearing => exact fun _ => h.boot
  case clears => exact fun _ ht => absurd ht hidle
  case count => exact (countOf_iff_zero (.inl hidle)).mpr h.cnt
  case noDwell => exact fun _ => h.dw
  case clkHigh => simp [State.sclk, h.lines, PulseHigh, h.st]
  case latOpen => simp [WindowOpen, h.st]
  case latClosed => simp [h.st]
  case latIdle => exact fun c _ => by simp [State.slatch, h.lines, hnot c]
  case committed => exact fun c _ hc => absurd hc (hnot c)

theorem engineInv_resetEdge {s : State} (h : EngineInv s) : EngineInv (resetEdge s) :=
  engineInv_of_inReset (Reset.inReset_resetEdge s) (by rw [(resetEdge_chains s).1]; exact h.lengths)

/-! ### The clock level -/

theorem dw_clearNext {s : State} (h : s.dw = 0) : (clearNext s).dw = 0 := by
  unfold clearNext
  split
  · rfl
  · exact h

theorem dw_engineAdvance {s : State} (ht : Transmitting s) : (engineAdvance s).dw = 0 := by
  obtain ⟨hne, hnc⟩ := ht
  unfold engineAdvance transition
  cases hst : s.st <;> simp_all

theorem dw_fsmCycle {s : State} {d : Nat} (h : EngineInv s) (hdw : s.dw < d) : (fsmCycle d s).dw < d := by
  have hd := Nat.zero_lt_of_lt hdw
  by_cases ht : Transmitting s
  · rw [fsmCycle_transmitting d s ht, dwellCycle]
    split
    next hlt => exact hlt
    next => rwa [dw_engineAdvance ht]
  · have h0 := h.noDwell ht
    rcases not_transmitting_cases ht with hst | hst
    · rw [fsmCycle_idle d hst]
      split
      · exact hd
      · exact hdw
    · rw [fsmCycle_clearNext d hst, dw_clearNext h0]
      exact hd

/-- Settles O36: reset, a held dwell, a transition and an acceptance each keep the invariant. -/
theorem clockKeepsInvariant : Obligations.ClockKeepsInvariant := by
  intro p s t _ h hdw hedge
  rcases clockEdge_cases p s with ⟨-, he⟩ | ⟨-, -, he⟩ | ⟨-, -, he⟩
  · cases he.symm.trans hedge
    rw [(Reset.inReset_resetEdge s).dw]
    exact ⟨engineInv_resetEdge h, Nat.zero_lt_of_lt hdw⟩
  · cases he.symm.trans hedge
  · cases he.symm.trans hedge
    exact ⟨engineInv_of_sameBlock (engineInv_fsmCycle h p.dwell) ⟨rfl, rfl, rfl, rfl, rfl, rfl, rfl, rfl, rfl, rfl⟩,
      dw_fsmCycle h hdw⟩

/-- Settles O28: a ready block is not transmitting, and its startup clear is over. -/
theorem readyMeansCommitted : Obligations.ReadyMeansCommitted := by
  intro s h hready
  have hst := ((Status.reqReady_iff s).mp hready).1
  have hidle : ¬ Transmitting s := fun ht => ht.1 hst
  have hboot := h.idle hst
  have hfree (c : Channel) : ¬ Active s c := fun ha => hidle ha.1
  exact ⟨hboot, fun c => ⟨(h.latIdle c (hfree c)).mpr (.inl hboot), sclk_low_of_not_transmitting h hidle c,
    h.committed c (hfree c) (.inl hboot)⟩⟩

end Sys2Proof.Proofs.EngineInvariant
end

section
/-! One step of the machine: faults, an accepted request, and what a step can move (60_exceptions.md,
70_reset_and_hazards.md section 3). -/

namespace Sys2Proof.Proofs.Steps

open Sys2Proof.Machine Sys2Proof.Safety Sys2Proof.Proofs.Memory

/-! ### Faults and refusals -/

/-- Settles O38: the outcomes of `exec`, `stepWith` and `clockEdge`, case by case, hold no refusal. -/
theorem blockRaisesNothing : Obligations.BlockRaisesNothing := by
  refine ⟨fun i s => ⟨_, exec_eq i s⟩, fun p s r => ⟨fun h => ?_, fun h => ?_⟩⟩
  · rcases stepWith_cases p s with ⟨-, hs⟩ | ⟨-, -, hs⟩ | ⟨-, -, -, -, hs⟩ | ⟨-, -, -, hs⟩ <;> cases hs.symm.trans h
  · rcases clockEdge_cases p s with ⟨-, hs⟩ | ⟨-, -, hs⟩ | ⟨-, -, hs⟩ <;> cases hs.symm.trans h

theorem requestChanged_iff (s : State) :
    requestChanged s = true ↔ s.reqValid = true ∧ ∃ w, s.held = some w ∧ w ≠ s.portWord := by
  unfold requestChanged
  cases s.held <;> simp

theorem stepWith_fault_iff (p : Params) (s : State) :
    stepWith p s = .fault .requestChanged ↔ s.rst = false ∧ requestChanged s = true := by
  rcases stepWith_cases p s with ⟨hr, hs⟩ | ⟨hr, hc, hs⟩ | ⟨hr, hc, -, -, hs⟩ | ⟨hr, hc, -, hs⟩ <;> simp [*]

theorem clockEdge_fault_iff (p : Params) (s : State) :
    clockEdge p s = .fault .requestChanged ↔ s.rst = false ∧ requestChanged s = true := by
  rcases clockEdge_cases p s with ⟨hr, hs⟩ | ⟨hr, hc, hs⟩ | ⟨hr, hc, hs⟩ <;> simp [*]

/-- The monitor after a clock edge (R199): the word presented out of reset to a block that was not idle. -/
theorem held_of_clockEdge {p : Params} {s t : State} (h : clockEdge p s = .next t) :
    t.held = if s.rst = false ∧ s.reqValid = true ∧ s.st ≠ .idle then some s.portWord else none := by
  rcases clockEdge_cases p s with ⟨hr, hs⟩ | ⟨-, -, hs⟩ | ⟨hr, -, hs⟩
  · cases hs.symm.trans h
    obtain ⟨-, -, -, -, -, -, -, -, hheld, -⟩ := resetEdge_regs s
    simp [hheld, hr]
  · cases hs.symm.trans h
  · cases hs.symm.trans h
    by_cases hst : s.st = .idle <;> cases hv : s.reqValid <;>
      simp [accepts, State.reqReady, sampled, hr, hst, hv]

/-- Settles O39: the fault branch of step and clock edge is `requestChanged` out of reset. -/
theorem requesterFaultExactly : Obligations.RequesterFaultExactly := by
  intro p s
  rw [stepWith_fault_iff, clockEdge_fault_iff, requestChanged_iff]
  exact ⟨Iff.rfl, Iff.rfl, fun _ => held_of_clockEdge⟩

/-! ### An accepted request -/

theorem stepWith_accepted (p : Params) {s t : State} (ha : accepts s = true) (hc : requestChanged s = false)
    (h : exec (decodeWord s.portWord) s = .next t) : stepWith p s = .next (releaseRequest t) := by
  have hrst := ((accepts_iff s).mp ha).2.1
  simp [stepWith, hrst, hc, ha, h, released]

/-- Settles O40: `stepWith` runs the decoded word and releases the request, and `exec` does not move the front-end. -/
theorem stepRunsDecodedInstruction : Obligations.StepRunsDecodedInstruction := by
  intro p s t ha hc hexec
  have hfe : t.fe = s.fe := by
    rw [exec_eq] at hexec
    cases hexec
    exact (Delivery.runTransmission_sameOutside _ _ s).fe
  rw [stepWith_accepted p ha hc hexec, ← hfe]
  cases t with
  | mk lines st ch sr cnt dw boot clr rst reqValid reqCh reqValue held chains fe rx tx => cases fe <;> rfl

/-! ### A placed word (log 14) -/

theorem readied_ready (s : State) : (readied s).st = .idle ∧ (readied s).rst = false ∧ (readied s).held = none := by
  unfold readied
  split
  next h =>
    obtain ⟨hst, hrst⟩ := (Status.reqReady_iff s).mp h
    exact ⟨hst, hrst, rfl⟩
  next => exact ⟨rfl, rfl, rfl⟩

theorem placeWord_accepted (w : ReqWord) (s : State) :
    accepts (placeWord w s) = true ∧ requestChanged (placeWord w s) = false ∧ (placeWord w s).portWord = w := by
  obtain ⟨hst, hrst, hheld⟩ := readied_ready s
  refine ⟨(accepts_iff _).mpr ⟨hst, hrst, rfl⟩, ?_, append_fields w⟩
  simp [requestChanged, placeWord, hheld]

/-- Settles O41: the word on the ports of a readied block is accepted, and the table's number decodes to that word's
instruction. -/
theorem placedWordRuns : Obligations.PlacedWordRuns := by
  intro s nbits w hw
  obtain ⟨ha, hc, hport⟩ := placeWord_accepted (BitVec.ofNat 18 w) s
  have hexec := exec_eq (decodeWord (BitVec.ofNat 18 w)) (placeWord (BitVec.ofNat 18 w) s)
  have hstep := stepWith_accepted Config.params ha hc (by rw [hport]; exact hexec)
  exact ⟨_, _, RequestWords.decodeTableWord_of_lt nbits hw, RequestWords.encode_decodeWord _, hexec, hstep⟩

/-! ### What a step can move (R46, R51) -/

theorem transition_lane (s : State) (c : Channel) : (transition s).lane c = s.lane c := by
  unfold transition
  cases s.st with
  | clearNext =>
    show (clearNext s).lane c = s.lane c
    unfold clearNext
    split <;> rfl
  | _ => rfl

theorem engineAdvance_lane (s : State) (c : Channel) : (engineAdvance s).lane c = (writeLine s).lane c :=
  transition_lane _ c

/-- An FSM state changes the lines of a channel only within its transmission (R51, R95). -/
theorem active_of_engineAdvance_lane_ne {s : State} {c : Channel} (h : (engineAdvance s).lane c ≠ s.lane c) :
    Transmitting s ∧ c = s.ch := by
  rw [engineAdvance_lane] at h
  constructor
  · by_contra hidle
    refine h ?_
    rcases EngineInvariant.not_transmitting_cases hidle with hst | hst <;> simp [writeLine, lineEvent, hst]
  · by_contra hc
    exact h (EngineInvariant.writeLine_lane_of_ne hc)

/-- An FSM state changes the outputs of a channel only in its `LAT_HI` (R46, R95). -/
theorem latHi_of_engineAdvance_outs_ne {s : State} {c : Channel}
    (h : ((engineAdvance s).chains.get c).outs ≠ (s.chains.get c).outs) : s.st = .latHi ∧ c = s.ch := by
  have hlane : (engineAdvance s).chains.get c = (writeLine s).chains.get c := congrArg Prod.snd (engineAdvance_lane s c)
  rw [hlane] at h
  rcases EngineInvariant.writeLine_cases s with hw | ⟨e, he, -, hw⟩
  · exact absurd (by rw [hw]) h
  · rw [hw] at h
    obtain rfl : e = latchHigh c := by
      by_contra hne
      exact h (drive_outs_of_ne e s c hne)
    unfold lineEvent at he
    cases hst : s.st <;> simp_all

theorem lane_of_sameBlock {s t : State} (h : SameBlock s t) (c : Channel) : t.lane c = s.lane c := by
  rw [State.lane, State.lane, h.lines, h.chains]

/-- Settles O20: a reset edge keeps the chains, an accepted request moves its own channel, an FSM state the channel in
progress, the front-end none. -/
theorem channelMovesOnlyInItsTransmission : Obligations.ChannelMovesOnlyInItsTransmission := by
  intro p s t c hstep
  have still {A B : Prop} {u : State} (h : u.lane c = s.lane c) :
      ((u.chains.get c).outs ≠ (s.chains.get c).outs → A) ∧ (u.lines.get c ≠ s.lines.get c → B) :=
    ⟨fun hne => absurd (congrArg (·.2.outs) h) hne, fun hne => absurd (congrArg Prod.fst h) hne⟩
  rcases stepWith_cases p s with ⟨hr, hs⟩ | ⟨-, -, hs⟩ | ⟨hr, -, hst, hv, hs⟩ | ⟨hr, -, -, hs⟩
  · cases hs.symm.trans hstep
    exact ⟨fun h => absurd (by rw [(resetEdge_chains s).1]) h, fun _ => .inl hr⟩
  · cases hs.symm.trans hstep
  · cases hs.symm.trans hstep
    have ha : accepts s = true := (accepts_iff s).mpr ⟨hst, hr, hv⟩
    by_cases hc : c = Channel.ofCode s.reqCh
    · exact ⟨fun _ => ⟨hr, .inl ⟨ha, hc⟩⟩, fun _ => .inr (.inl ⟨ha, hc⟩)⟩
    · exact still ((lane_of_sameBlock (releaseRequest_sameBlock _) c).trans
        (Delivery.runTransmission_lane_of_ne hc s.reqValue s))
  · cases hs.symm.trans hstep
    rcases agentMove_cases p.hexOverflow s with ⟨-, hm⟩ | ⟨-, -, hm⟩ | ⟨-, -, hm⟩
    · rw [hm]
      exact still (lane_of_sameBlock (startupOutput_sameBlock s) c)
    · rw [hm]
      exact still (lane_of_sameBlock (frontEndMove_sameBlock p.hexOverflow s) c)
    · rw [hm]
      exact ⟨fun h => ⟨hr, .inr (latHi_of_engineAdvance_outs_ne h)⟩,
        fun h => .inr (.inr (active_of_engineAdvance_lane_ne fun hlane => h (congrArg Prod.fst hlane)))⟩

end Sys2Proof.Proofs.Steps
end

section
/-! Numbers in the front-end: the bound on a parsed value, the digits of a report, the failure texts (41_frontend.md
sections 3 and 4, 60_exceptions.md section 2). -/

namespace Sys2Proof.Proofs.Numbers

open Sys2Proof.Machine Sys2Proof.Proofs.Literals

/-! ### The parsed value (R134) -/

/-- The digits of a text are its characters' digits, one by one. -/
theorem forall₂_of_digitsOf {digit : Char → Option Nat} {t : Text} {ds : List Nat} (h : digitsOf digit t = some ds) :
    List.Forall₂ (fun x d => digit x = some d) t ds := by
  induction t generalizing ds with
  | nil =>
    cases h
    exact .nil
  | cons x xs ih =>
    rw [digitsOf] at h
    split at h
    next d ds' hd hds =>
      cases h
      exact .cons hd (ih hds)
    next => cases h

theorem digit_lt_of_digitsOf {digit : Char → Option Nat} {base : Nat} (hdigit : ∀ x d, digit x = some d → d < base)
    {t : Text} {ds : List Nat} (h : digitsOf digit t = some ds) : ∀ d ∈ ds, d < base := by
  have hall := forall₂_of_digitsOf h
  clear h
  induction hall with
  | nil => simp
  | cons hd _ ih => exact List.forall_mem_cons.mpr ⟨hdigit _ _ hd, ih⟩

theorem digitsOf_of_digitsValue {base n : Nat} {digit : Char → Option Nat} {t : Text}
    (h : digitsValue base digit t = .ok n) : ∃ ds, digitsOf digit t = some ds ∧ n = Nat.ofDigits base ds.reverse := by
  unfold digitsValue at h
  split at h
  · cases h
  · cases hds : digitsOf digit t with
    | none => simp [hds] at h
    | some ds =>
      simp only [hds] at h
      cases h
      exact ⟨ds, rfl, positional_ofDigits base ds⟩

/-- A text of `k` digits is below `base ^ k`. -/
theorem digitsValue_lt {base n : Nat} {digit : Char → Option Nat} {t : Text} (hbase : 1 < base)
    (hdigit : ∀ x d, digit x = some d → d < base) (h : digitsValue base digit t = .ok n) : n < base ^ t.length := by
  obtain ⟨ds, hds, rfl⟩ := digitsOf_of_digitsValue h
  have hlt : ∀ d ∈ ds.reverse, d < base := fun d hd => digit_lt_of_digitsOf hdigit hds d (List.mem_reverse.mp hd)
  have hlen := (forall₂_of_digitsOf hds).length_eq
  simpa [hlen] using Nat.ofDigits_lt_base_pow_length hbase hlt

theorem parseHex_le {hex : HexOverflow} {w n : Nat} {r : Text} (h : parseHex hex w r = .ok n) : n ≤ 2 ^ w - 1 := by
  have hmod (m : Nat) : m % 2 ^ w ≤ 2 ^ w - 1 := Nat.le_sub_one_of_lt (Nat.mod_lt m (Nat.two_pow_pos w))
  unfold parseHex at h
  cases hv : digitsValue 16 hexDigit r with
  | error e => simp [hv] at h
  | ok m =>
    simp only [hv] at h
    split at h
    next hle =>
      cases h
      exact hle
    next =>
      cases hex <;> cases h
      exact hmod m

theorem parseBin_le {w n : Nat} {r : Text} (h : parseBin w r = .ok n) : n ≤ 2 ^ w - 1 := by
  have hbit : ∀ x d, binDigit x = some d → d < 2 := fun x d hd => by
    rcases binDigit_cases hd with ⟨-, rfl⟩ | ⟨-, rfl⟩ <;> decide
  unfold parseBin at h
  split at h
  next => cases h
  next hlen =>
    have hlt := digitsValue_lt (by decide) hbit h
    have hpow := Nat.pow_le_pow_right Nat.two_pos (Nat.not_lt.mp hlen)
    omega

theorem parseDec_le {w n : Nat} {t : Text} (h : parseDec w t = .ok n) : n ≤ 2 ^ w - 1 := by
  unfold parseDec at h
  cases hv : digitsValue 10 decDigit t with
  | error e => simp [hv] at h
  | ok m =>
    simp only [hv] at h
    split at h
    next hle =>
      cases h
      exact hle
    next => cases h

theorem parse_le {hex : HexOverflow} {w n : Nat} {token : Text} (h : parse hex w token = .ok n) : n ≤ 2 ^ w - 1 := by
  rw [parse, parseForm] at h
  split_ifs at h
  · exact parseHex_le h
  · exact parseBin_le h
  · exact parseDec_le h

/-- Settles O46: each of the three forms bounds its value, the binary one by the length of its text. -/
theorem parsedValueFits : Obligations.ParsedValueFits := fun _ _ _ _ => parse_le

theorem parse_lt {hex : HexOverflow} {w n : Nat} {token : Text} (h : parse hex w token = .ok n) : n < 2 ^ w :=
  (parse_le h).trans_lt (Nat.sub_one_lt (Nat.two_pow_pos w).ne')

/-- A dispatched value fits the width of its group. -/
theorem dispatch_lt {hex : HexOverflow} {line : Text} {g : Channel} {n : Nat} (h : dispatch hex line = .ok (g, n)) :
    n < 2 ^ g.width := by
  unfold dispatch at h
  split at h
  next => cases h
  next g' token _ =>
    cases hp : parse hex g'.width token with
    | error f => simp [hp] at h
    | ok m =>
      simp only [hp] at h
      cases h
      exact parse_lt hp

/-! ### The digits of a report (R136) -/

/-- With fuel for it, the digits are Mathlib's, the lowest apart, so that 0 has one digit. -/
theorem toBase_reverse {base fuel n : Nat} (hbase : 1 < base) (hfuel : n < fuel) :
    (toBase base fuel n).reverse = n % base :: Nat.digits base (n / base) := by
  induction fuel generalizing n with
  | zero => omega
  | succ fuel ih =>
    rw [toBase]
    split
    next hlt => simp [Nat.mod_eq_of_lt hlt, Nat.div_eq_of_lt hlt]
    next hge =>
      have hpos : 0 < n / base := Nat.div_pos (Nat.not_lt.mp hge) (by omega)
      have hless : n / base < n := Nat.div_lt_self (by omega) hbase
      rw [List.reverse_append, ih (by omega), Nat.digits_def' hbase hpos]
      rfl

theorem decimalDigits_reverse (n : Nat) : (decimalDigits n).reverse = n % 10 :: Nat.digits 10 (n / 10) :=
  toBase_reverse (by decide) n.lt_succ_self

theorem ofDigits_decimalDigits (n : Nat) : Nat.ofDigits 10 (decimalDigits n).reverse = n := by
  rw [decimalDigits_reverse, Nat.ofDigits_cons, Nat.ofDigits_digits]
  exact Nat.mod_add_div n 10

theorem decimalDigits_lt (n : Nat) : ∀ d ∈ decimalDigits n, d < 10 := by
  intro d hd
  rw [← List.mem_reverse, decimalDigits_reverse, List.mem_cons] at hd
  rcases hd with rfl | hd
  · exact Nat.mod_lt n (by decide)
  · exact Nat.digits_lt_base (by decide) hd

theorem decimalDigits_head_ne_zero {n : Nat} (hn : n ≠ 0) : (decimalDigits n).head? ≠ some 0 := by
  have hdigits : (decimalDigits n).reverse = Nat.digits 10 n := by
    rw [decimalDigits_reverse, Nat.digits_def' (by decide) (Nat.pos_of_ne_zero hn)]
  rw [← List.getLast?_reverse, hdigits]
  rw [List.getLast?_eq_getLast_of_ne_nil (Nat.digits_ne_nil_iff_ne_zero.mpr hn)]
  exact fun hlast => Nat.getLast_digit_ne_zero 10 hn (Option.some.inj hlast)

theorem fixedDigits_length (base k n : Nat) : (fixedDigits base k n).length = k := by
  induction k generalizing n with
  | zero => rfl
  | succ k ih => rw [fixedDigits, List.length_append, ih, List.length_singleton]

theorem fixedDigits_lt {base : Nat} (hbase : 0 < base) (k n : Nat) : ∀ d ∈ fixedDigits base k n, d < base := by
  induction k generalizing n with
  | zero => simp [fixedDigits]
  | succ k ih =>
    intro d hd
    rw [fixedDigits, List.mem_append, List.mem_singleton] at hd
    rcases hd with hd | rfl
    · exact ih _ d hd
    · exact Nat.mod_lt n hbase

theorem ofDigits_fixedDigits (base k n : Nat) : Nat.ofDigits base (fixedDigits base k n).reverse = n % base ^ k := by
  induction k generalizing n with
  | zero => simp [fixedDigits, Nat.mod_one]
  | succ k ih =>
    rw [fixedDigits, List.reverse_append, List.reverse_singleton, List.singleton_append, Nat.ofDigits_cons, ih,
      Nat.pow_succ', Nat.mod_mul]

/-- Settles O51: decimal digits are Mathlib's, and `k` fixed digits denote the value modulo `base ^ k`. -/
theorem reportDigits : Obligations.ReportDigits := by
  intro g n hn
  have hhex : (16 : Nat) ^ (g.width / 4) = 2 ^ g.width := by cases g <;> rfl
  refine ⟨ofDigits_decimalDigits n, decimalDigits_lt n, decimalDigits_head_ne_zero, ?_, ?_, fixedDigits_lt two_pos _ _,
    fixedDigits_length _ _ _, ?_, fixedDigits_lt (by decide) _ _, fixedDigits_length _ _ _⟩
  · rintro rfl
    rfl
  · exact (ofDigits_fixedDigits 2 g.width n).trans (Nat.mod_eq_of_lt hn)
  · exact (ofDigits_fixedDigits 16 (g.width / 4) n).trans (by rw [hhex, Nat.mod_eq_of_lt hn])

/-! ### The failures (R171) -/

theorem failureFragment_infix (f : Failure) : failureFragment f <:+: emissionText (.diagnostic f) :=
  ⟨Config.diagnosticBefore f, Config.diagnosticAfter f, rfl⟩

/-- Settles O56: row by row; the fragment stands between the characters the spec leaves open. -/
theorem failureTable : Obligations.FailureTable := by
  refine ⟨fun _ => ⟨rfl, rfl⟩, fun _ => ⟨rfl, rfl⟩, fun _ => rfl, fun _ => ⟨rfl, rfl⟩, rfl, rfl, failureFragment_infix⟩

end Sys2Proof.Proofs.Numbers
end

section
/-! The invariant of the whole machine, and that no run from it stops (41_frontend.md, 60_exceptions.md section 1). -/

namespace Sys2Proof.Proofs.MachineInvariant

open Sys2Proof.Machine Sys2Proof.Safety Sys2Proof.Proofs.EngineInvariant

/-! ### What a front-end move does to the request ports (R120, R135) -/

/-- The state after a line was dispatched to value `n` for group `g` (R135, R136). -/
def presented (g : Channel) (n : Nat) (s : State) : State :=
  ((s.emit [.report (reportOf g n)]).present g.code (zext16 n)).setFe (.requesting g)

theorem dispatchLine_cases (hex : HexOverflow) (line : Text) (s : State) :
    (∃ f, dispatch hex line = .error f ∧ dispatchLine hex line s = failCommand f s) ∨
    (∃ g n, dispatch hex line = .ok (g, n) ∧ dispatchLine hex line s = presented g n s) := by
  unfold dispatchLine
  cases h : dispatch hex line with
  | error f => exact .inl ⟨f, rfl, rfl⟩
  | ok gn => exact .inr ⟨gn.1, gn.2, rfl, rfl⟩

theorem pollLine_cases (s : State) :
    pollLine s = s ∨
      ∃ rest, pollLine s = s.setRx rest ∨ ∃ line, pollLine s = (s.setRx rest).setFe (.dispatching line) := by
  unfold pollLine
  cases readLine s.rx with
  | none => exact .inl rfl
  | some lr =>
    refine .inr ⟨lr.2, ?_⟩
    dsimp only
    split
    · exact .inl rfl
    · exact .inr ⟨_, rfl⟩

/-- A front-end move leaves `req_valid` alone and asserts no request, or it holds the request it asserts, or it presents
the request of a line that succeeded. -/
theorem frontEndMove_request (hex : HexOverflow) (s : State) :
    ((frontEndMove hex s).reqValid = s.reqValid ∧ ∀ g, (frontEndMove hex s).fe ≠ .requesting g) ∨
    (∃ g, s.fe = .requesting g) ∨
    (∃ line g n, s.fe = .dispatching line ∧ dispatch hex line = .ok (g, n) ∧ frontEndMove hex s = presented g n s) := by
  unfold frontEndMove
  cases hfe : s.fe with
  | startup => exact .inl ⟨rfl, by simp [startupOutput]⟩
  | awaitClear =>
    dsimp only
    split
    · exact .inl ⟨rfl, by simp⟩
    · exact .inl ⟨rfl, by simp [hfe]⟩
  | idle =>
    rcases pollLine_cases s with h | ⟨rest, h | ⟨line, h⟩⟩
    · exact .inl (by simp [h, hfe])
    · exact .inl (by simp [h, hfe])
    · exact .inl (by simp [h])
  | dispatching line =>
    rcases dispatchLine_cases hex line s with ⟨f, -, h⟩ | ⟨g, n, hd, h⟩
    · exact .inl (by simp [h, failCommand])
    · exact .inr (.inr ⟨line, g, n, rfl, hd, h⟩)
  | requesting g => exact .inr (.inl ⟨g, rfl⟩)
  | awaiting g =>
    dsimp only
    split
    · exact .inl ⟨rfl, by simp⟩
    · exact .inl ⟨rfl, by simp [hfe]⟩

/-- A reset edge raises no request (log 6). -/
theorem resetEdge_reqValid {s : State} (h : (resetEdge s).reqValid = true) : s.reqValid = true := by
  unfold resetEdge restartFrontEnd at h
  split at h
  · cases h
  all_goals exact h

/-- Settles O50: only `dispatchLine` on a line that succeeds raises `req_valid`, and its value fits the group's width. -/
theorem onlyCommandsRequest : Obligations.OnlyCommandsRequest := by
  intro p s t hstep hvalid
  rcases stepWith_cases p s with ⟨-, hs⟩ | ⟨-, -, hs⟩ | ⟨-, -, -, -, hs⟩ | ⟨-, -, -, hs⟩ <;>
    cases hs.symm.trans hstep
  case inl => exact .inl (resetEdge_reqValid hvalid)
  case inr.inr.inl =>
    rw [(releaseRequest_ports _).1] at hvalid
    cases hvalid
  case inr.inr.inr =>
    have hkept : (agentMove p.hexOverflow s).reqValid = true := hvalid
    rcases agentMove_cases p.hexOverflow s with ⟨-, hm⟩ | ⟨-, -, hm⟩ | ⟨-, -, hm⟩
    · rw [hm] at hkept
      exact .inl hkept
    · rcases frontEndMove_request p.hexOverflow s with ⟨hsame, -⟩ | hreq | ⟨line, g, n, hfe, hd, hp⟩
      · rw [hm, hsame] at hkept
        exact .inl hkept
      · exact .inr (.inl hreq)
      · rw [hm, hp]
        exact .inr (.inr ⟨line, g, n, hfe, hd, rfl, rfl, rfl, Numbers.dispatch_lt hd⟩)
    · rw [hm, (engineAdvance_sameOutside s).reqValid] at hkept
      exact .inl hkept

/-! ### The invariant of the front-end and its request -/

theorem requestChanged_of_held_none {s : State} (h : s.held = none) : requestChanged s = false := by
  rw [requestChanged, h]

/-- What was sampled is still presented where the ports were left alone, and nothing was sampled of quiet ports. -/
theorem requestChanged_setHeld_sampled {s t : State} (h : s.reqValid = true → t.portWord = s.portWord) :
    requestChanged (t.setHeld (sampled s)) = false := by
  cases hv : s.reqValid with
  | false => simp [requestChanged, sampled, hv]
  | true =>
    have hword : s.portWord = (t.setHeld (some s.portWord)).portWord := (h hv).symm
    simp [requestChanged, sampled, hv, ← hword]

theorem requestInv_resetEdge (s : State) : RequestInv (resetEdge s) := by
  obtain ⟨-, -, -, -, -, -, -, -, hheld, hfe⟩ := resetEdge_regs s
  exact ⟨fun hne => absurd hfe hne, fun g hg => FrontEnd.noConfusion (hfe.symm.trans hg),
    requestChanged_of_held_none hheld⟩

theorem releaseRequest_not_requesting (s : State) (g : Channel) : (releaseRequest s).fe ≠ .requesting g := by
  unfold releaseRequest
  cases hfe : s.fe <;> simp [hfe]

theorem requestInv_accepted {s : State} (h : EngineInv s) (hst : s.st = .idle) (c : Channel) (v : Value) :
    RequestInv (releaseRequest (runTransmission c v s)) := by
  have hboot : (releaseRequest (runTransmission c v s)).boot = false := by
    rw [(releaseRequest_sameBlock _).boot, (Reset.runTransmission_boot_clr_st c v s).1, h.idle hst]
  obtain ⟨-, hheld, -⟩ := releaseRequest_ports (runTransmission c v s)
  exact ⟨fun _ _ => hboot, fun g hg => absurd hg (releaseRequest_not_requesting _ g), requestChanged_of_held_none hheld⟩

theorem requestInv_startupOutput (s : State) : RequestInv ((startupOutput s).setHeld (sampled s)) :=
  ⟨fun _ hne => absurd rfl hne, fun _ hg => FrontEnd.noConfusion hg, requestChanged_setHeld_sampled fun _ => rfl⟩

theorem engineAdvance_boot {s : State} (h : s.boot = false) : (engineAdvance s).boot = false := by
  obtain ⟨-, -, -, -, -, hkept, -⟩ := writeLine_regs s
  have hboot := hkept.trans h
  unfold engineAdvance transition clearNext
  cases (writeLine s).st with
  | clearNext =>
    dsimp only
    split
    · exact hboot
    · rfl
  | _ => exact hboot

theorem requestInv_engineAdvance {s : State} (h : RequestInv s) :
    RequestInv ((engineAdvance s).setHeld (sampled s)) := by
  have hout := engineAdvance_sameOutside s
  refine ⟨fun h1 h2 => ?_, fun g hg => ?_, requestChanged_setHeld_sampled fun _ => hout.portWord⟩
  · exact engineAdvance_boot (h.afterBoot (fun he => h1 (hout.fe.trans he)) fun he => h2 (hout.fe.trans he))
  · obtain ⟨hvalid, hch, hvalue⟩ := h.requesting g (hout.fe.symm.trans hg)
    exact ⟨hout.reqValid.trans hvalid, hout.reqCh.trans hch, by rw [← hout.reqValue] at hvalue; exact hvalue⟩

/-- A request is asserted only while its front-end has it on the ports, so an idle block would accept it. -/
theorem requestInv_frontEndMove (hex : HexOverflow) {s : State} (h : RequestInv s) (hboot : s.boot = false)
    (hvalid : s.reqValid = false) : RequestInv ((frontEndMove hex s).setHeld (sampled s)) := by
  have hstable : requestChanged ((frontEndMove hex s).setHeld (sampled s)) = false :=
    requestChanged_setHeld_sampled fun hv => by simp [hvalid] at hv
  refine ⟨fun _ _ => (frontEndMove_sameBlock hex s).boot.trans hboot, fun g hg => ?_, hstable⟩
  rcases frontEndMove_request hex s with ⟨-, hno⟩ | ⟨g', hg'⟩ | ⟨line, g', n, -, hd, hp⟩
  · exact absurd hg (hno g)
  · exact absurd (h.requesting g' hg').1 (by simp [hvalid])
  · rw [hp] at hg ⊢
    obtain rfl : g' = g := FrontEnd.requesting.inj hg
    exact ⟨rfl, rfl, (BitVec.toNat_ofNat n 16 ▸ Nat.mod_le n (2 ^ 16)).trans_lt (Numbers.dispatch_lt hd)⟩

/-! ### The whole machine -/

theorem engineInv_agentMove (hex : HexOverflow) {s : State} (h : EngineInv s) : EngineInv (agentMove hex s) := by
  rcases agentMove_cases hex s with ⟨-, hm⟩ | ⟨-, -, hm⟩ | ⟨-, -, hm⟩ <;> rw [hm]
  · exact engineInv_of_sameBlock h (startupOutput_sameBlock s)
  · exact engineInv_of_sameBlock h (frontEndMove_sameBlock hex s)
  · exact engineInv_engineAdvance h

theorem requestInv_agentMove (hex : HexOverflow) {s : State} (h : Inv s) (hr : s.rst = false)
    (ha : accepts s = false) : RequestInv ((agentMove hex s).setHeld (sampled s)) := by
  rcases agentMove_cases hex s with ⟨-, hm⟩ | ⟨-, hst, hm⟩ | ⟨-, -, hm⟩ <;> rw [hm]
  · exact requestInv_startupOutput s
  · have hvalid : s.reqValid = false := by
      simpa [accepts, State.reqReady, hst, hr] using ha
    exact requestInv_frontEndMove hex h.request (h.engine.idle hst) hvalid
  · exact requestInv_engineAdvance h.request

theorem engineInv_setHeld {s : State} (h : EngineInv s) (w : Option ReqWord) : EngineInv (s.setHeld w) :=
  engineInv_of_sameBlock h ⟨rfl, rfl, rfl, rfl, rfl, rfl, rfl, rfl, rfl, rfl⟩

theorem inv_of_stepWith {p : Params} {s t : State} (h : Inv s) (hstep : stepWith p s = .next t) : Inv t := by
  rcases stepWith_cases p s with ⟨-, hs⟩ | ⟨-, -, hs⟩ | ⟨-, -, hst, -, hs⟩ | ⟨hr, -, ha, hs⟩ <;>
    cases hs.symm.trans hstep
  · exact ⟨engineInv_resetEdge h.engine, requestInv_resetEdge s⟩
  · exact ⟨engineInv_of_sameBlock (engineInv_runTransmission h.engine hst _ _) (releaseRequest_sameBlock _),
      requestInv_accepted h.engine hst _ _⟩
  · exact ⟨engineInv_setHeld (engineInv_agentMove _ h.engine) _, requestInv_agentMove _ h hr ha⟩

/-- Settles O34: reset, an accepted request and a move of an agent each keep both halves of the invariant. -/
theorem stepKeepsInvariant : Obligations.StepKeepsInvariant := fun _ _ _ => inv_of_stepWith

/-- Nothing stops a step but the requester's fault, which the invariant excludes. -/
theorem stepWith_next_of_inv (p : Params) {s : State} (h : Inv s) : ∃ t, stepWith p s = .next t := by
  rcases stepWith_cases p s with ⟨-, hs⟩ | ⟨-, hc, -⟩ | ⟨-, -, -, -, hs⟩ | ⟨-, -, -, hs⟩
  · exact ⟨_, hs⟩
  · exact absurd (hc.symm.trans h.request.stable) Bool.noConfusion
  · exact ⟨_, hs⟩
  · exact ⟨_, hs⟩

/-- Settles O37, by induction on the number of steps: each is possible and keeps the invariant. -/
theorem goodStatesNeverStop : Obligations.GoodStatesNeverStop := by
  intro p n
  induction n with
  | zero => exact fun _ _ => trivial
  | succ n ih =>
    intro s h
    obtain ⟨t, ht⟩ := stepWith_next_of_inv p h
    exact ⟨t, ht, ih t (inv_of_stepWith h ht)⟩

/-! ### Reset -/

theorem inReset_resetWith (p : Params) : InReset (State.resetWith p) :=
  ⟨PerChannel.get_tabulate _, rfl, rfl, rfl, rfl, rfl, rfl, rfl⟩

/-- Settles O29: field by field. -/
theorem resetState : Obligations.ResetState := fun p => ⟨inReset_resetWith p, rfl, rfl, rfl⟩

theorem powerOn_lengths (c : Channel) (n : Nat) :
    (Chain.powerOn c n).outs.length = (Chain.powerOn c n).stages.length := by
  simp [Chain.powerOn]

/-- Settles O35: the reset column with chains of one length each, and a front-end before its startup output. -/
theorem resetHasInvariant : Obligations.ResetHasInvariant := fun p =>
  { engine := engineInv_of_inReset (inReset_resetWith p) fun c => by
      have hchain : (State.resetWith p).chains.get c = Chain.powerOn c (p.chainLen.get c) := PerChannel.get_tabulate _ c
      rw [hchain, powerOn_lengths]
    request := ⟨fun hne => absurd rfl hne, fun _ hg => FrontEnd.noConfusion hg, rfl⟩ }

end Sys2Proof.Proofs.MachineInvariant
end

section
/-! The front-end step by step: reading a line, failing or presenting a request, a whole command (41_frontend.md). -/

namespace Sys2Proof.Proofs.Commands

open Sys2Proof.Machine Sys2Proof.Safety Sys2Proof.Proofs.MachineInvariant

theorem stepsWith_succ {p : Params} {n : Nat} {s t : State} (h : stepWith p s = .next t) :
    stepsWith p (n + 1) s = stepsWith p n t := by
  rw [stepsWith, h]

/-! ### Reading a line (R121, R122) -/

/-- What ends a line: LF, or CR LF; a CR before a lone LF would belong to the ending. -/
def EndsLine (line ending : Text) : Prop :=
  (ending = ['\n'] ∧ line.getLast? ≠ some '\r') ∨ ending = ['\r', '\n']

theorem readLine_of_endsLine {line ending rest : Text} (hline : '\n' ∉ line) (hend : EndsLine line ending) :
    readLine (line ++ ending ++ rest) = some (line ++ ending, rest) := by
  rcases hend with ⟨rfl, -⟩ | rfl
  · simpa using readLine_some line rest hline
  · simpa using readLine_some (line ++ ['\r']) rest (by simpa using hline)

theorem stripTerminator_of_endsLine {line ending : Text} (hend : EndsLine line ending) :
    stripTerminator (line ++ ending) = line := by
  rcases hend with ⟨rfl, hcr⟩ | rfl
  · exact stripTerminator_lf line hcr
  · simpa using stripTerminator_crlf line

section
variable {p : Params} {s : State} (hrst : s.rst = false) (hst : s.st = .idle) (hvalid : s.reqValid = false)
include hrst hst hvalid

theorem stepWith_idle (hfe : s.fe = .idle) : stepWith p s = .next ((pollLine s).setHeld none) := by
  rw [stepWith_frontEnd p s hrst hst hvalid (by simp [hfe]), frontEndMove, hfe]

theorem stepWith_no_line (hfe : s.fe = .idle) (hrx : '\n' ∉ s.rx) : stepWith p s = .next { s with held := none } := by
  rw [stepWith_idle hrst hst hvalid hfe, pollLine, readLine_none s.rx hrx]
  rfl

theorem stepWith_line (hfe : s.fe = .idle) {line ending rest : Text} (hline : '\n' ∉ line)
    (hend : EndsLine line ending) (hrx : s.rx = line ++ ending ++ rest) :
    stepWith p s = .next { s with
      rx := rest, held := none, fe := if line = [] then .idle else .dispatching line } := by
  rw [stepWith_idle hrst hst hvalid hfe, pollLine, hrx, readLine_of_endsLine hline hend]
  dsimp only
  rw [stripTerminator_of_endsLine hend]
  split
  · rw [← hfe]
    rfl
  · rfl

end

theorem keyword_head_not_space (g : Channel) : ∃ x xs, g.keyword = x :: xs ∧ isSpace x = false := by
  cases g <;> exact ⟨_, _, rfl, by decide⟩

/-- A line of whitespace begins with no keyword. -/
theorem dispatch_blank (hex : HexOverflow) {line : Text} (h : Blank line) : dispatch hex line = .error .unknown := by
  refine Keywords.dispatch_of_matchKeyword_none hex (Keywords.matchKeyword_eq_none fun g token hline => ?_)
  obtain ⟨x, xs, hkey, hx⟩ := keyword_head_not_space g
  have hblank : isSpace x = true := h x (by simp [hline, hkey])
  simp [hx] at hblank

/-- Settles O55: `stepWith_line` with an empty and with another line. -/
theorem idleReadsOneLine : Obligations.IdleReadsOneLine := by
  intro p s hrst hst hvalid hfe
  refine ⟨stepWith_no_line hrst hst hvalid hfe, fun rest hrx => ?_, fun line rest hline hne hrx => ?_,
    fun line _ hblank => dispatch_blank _ hblank⟩
  · obtain ⟨ending, hend, hrx⟩ : ∃ ending, EndsLine [] ending ∧ s.rx = [] ++ ending ++ rest := by
      rcases hrx with hrx | hrx
      · exact ⟨['\n'], .inl ⟨rfl, by simp⟩, hrx⟩
      · exact ⟨['\r', '\n'], .inr rfl, hrx⟩
    rw [stepWith_line hrst hst hvalid hfe (List.not_mem_nil) hend hrx, if_pos rfl, ← hfe]
  · obtain ⟨ending, hend, hrx⟩ : ∃ ending, EndsLine line ending ∧ s.rx = line ++ ending ++ rest := by
      rcases hrx with ⟨hrx, hcr⟩ | hrx
      · exact ⟨['\n'], .inl ⟨rfl, hcr⟩, by simpa using hrx⟩
      · exact ⟨['\r', '\n'], .inr rfl, by simpa using hrx⟩
    rw [stepWith_line hrst hst hvalid hfe hline hend hrx, if_neg hne]

/-! ### Handling a line (R135, R173) -/

theorem stepWith_dispatching {p : Params} {s : State} {line : Text} (hrst : s.rst = false) (hst : s.st = .idle)
    (hvalid : s.reqValid = false) (hfe : s.fe = .dispatching line) :
    stepWith p s = .next ((dispatchLine p.hexOverflow line s).setHeld none) := by
  rw [stepWith_frontEnd p s hrst hst hvalid (by simp [hfe]), frontEndMove, hfe]

/-- Settles O48: the failing branch of `dispatchLine`. -/
theorem failedCommand : Obligations.FailedCommand := by
  intro p s line f hrst hst hvalid hfe hd
  rw [stepWith_dispatching hrst hst hvalid hfe, dispatchLine, hd]
  rfl

/-- Settles O49: the other branch of `dispatchLine`. -/
theorem successfulCommand : Obligations.SuccessfulCommand := by
  intro p s line g n hrst hst hvalid hfe hd
  rw [stepWith_dispatching hrst hst hvalid hfe, dispatchLine, hd]
  rfl

/-- The state after a line was read, `rest` being left on the serial line. -/
def lineRead (line rest : Text) (s : State) : State := { s with rx := rest, held := none, fe := .dispatching line }

theorem stepWith_lineRead {p : Params} {s : State} {line ending rest : Text} (hrst : s.rst = false)
    (hst : s.st = .idle) (hvalid : s.reqValid = false) (hfe : s.fe = .idle) (hline : '\n' ∉ line) (hne : line ≠ [])
    (hend : EndsLine line ending) (hrx : s.rx = line ++ ending ++ rest) :
    stepWith p s = .next (lineRead line rest s) := by
  rw [stepWith_line hrst hst hvalid hfe hline hend hrx, if_neg hne]
  rfl

/-- Settles O58: one step reads the line, the next handles it. -/
theorem failedLineEndToEnd : Obligations.FailedLineEndToEnd := by
  intro p s line ending rest f hrst hst hvalid hfe hline hne hend hd hrx
  have hread := stepWith_lineRead (p := p) hrst hst hvalid hfe hline hne hend hrx
  have hfail := failedCommand p (lineRead line rest s) line f hrst hst hvalid rfl hd
  rw [stepsWith_succ hread, stepsWith_succ hfail, ← hfe]
  rfl

/-! ### A whole command -/

theorem keyword_no_lf (g : Channel) : '\n' ∉ g.keyword := by
  cases g <;> decide

theorem endsLine_command {g : Channel} {token ending : Text} (h : EndsLine token ending) :
    EndsLine (g.keyword ++ ' ' :: token) ending := by
  refine h.imp_left fun ⟨hend, hcr⟩ => ⟨hend, ?_⟩
  cases token with
  | nil => simp
  | cons x xs => simpa using hcr

theorem dispatch_command {hex : HexOverflow} {g : Channel} {token : Text} {n : Nat}
    (h : parse hex g.width token = .ok n) : dispatch hex (g.keyword ++ ' ' :: token) = .ok (g, n) := by
  rw [Keywords.dispatch_of_matchKeyword hex ((Keywords.matchKeyword_eq_some_iff _ token g).mpr rfl), h]
  rfl

/-- The state after the request of group `g` on the ports was accepted and transmitted (R89, R135). -/
def served (g : Channel) (s : State) : State :=
  { delivered g s.reqValue s with reqValid := false, held := none, fe := .awaiting g }

/-- A front-end that has just put the request of group `g` on the ports of an idle block (R135). -/
structure Asserting (g : Channel) (s : State) : Prop where
  rst      : s.rst = false
  st       : s.st = .idle
  boot     : s.boot = false
  reqValid : s.reqValid = true
  reqCh    : s.reqCh = g.code
  held     : s.held = none
  fe       : s.fe = .requesting g

/-- The step that runs the request a front-end asserts. -/
theorem stepWith_asserting {p : Params} {g : Channel} {s : State} (h : Asserting g s) (hclk : s.sclk g = false)
    (hlen : DefaultLength s g) : stepWith p s = .next (served g s) := by
  have hword : decodeWord s.portWord = Instr.transmit g s.reqValue := by
    rw [State.portWord, decodeWord_append, h.reqCh, Channel.ofCode_code]
  have hexec : exec (decodeWord s.portWord) s = .next (delivered g s.reqValue s) := by
    rw [hword, exec_eq, Instr.transmit_channel, Instr.transmit_value,
      Delivery.runTransmission_eq_delivered _ hclk hlen]
  have hfe : (delivered g s.reqValue s).fe = .requesting g := h.fe
  rw [Steps.stepWith_accepted p ((accepts_iff s).mpr ⟨h.st, h.rst, h.reqValid⟩) (requestChanged_of_held_none h.held)
    hexec, releaseRequest, hfe]
  rfl

/-- The step that confirms a completed request (R135). -/
theorem stepWith_awaiting {p : Params} {s : State} {g : Channel} (hrst : s.rst = false) (hst : s.st = .idle)
    (hvalid : s.reqValid = false) (hfe : s.fe = .awaiting g) :
    stepWith p s = .next (((s.emit [.confirmation g, .usageHelp]).setFe .idle).setHeld none) := by
  have hready : s.reqReady = true := (Status.reqReady_iff s).mpr ⟨hst, hrst⟩
  rw [stepWith_frontEnd p s hrst hst hvalid (by simp [hfe]), frontEndMove, hfe]
  dsimp only
  rw [if_pos hready]

theorem stepWith_served {p : Params} {g : Channel} {s : State} (h : Asserting g s) :
    stepWith p (served g s) = .next ((((served g s).emit [.confirmation g, .usageHelp]).setFe .idle).setHeld none) := by
  refine stepWith_awaiting ?_ ?_ ?_ ?_ <;> simp [served, delivered, h.rst, h.boot, afterLatHi]

/-- A command after its line was read and dispatched: its request stands on the ports. -/
def asserted (g : Channel) (n : Nat) (line rest : Text) (s : State) : State :=
  (presented g n (lineRead line rest s)).setHeld none

theorem stepWith_lineRead_succeeds {p : Params} {s : State} {line : Text} (rest : Text) {g : Channel} {n : Nat}
    (hrst : s.rst = false) (hst : s.st = .idle) (hvalid : s.reqValid = false)
    (hd : dispatch p.hexOverflow line = .ok (g, n)) :
    stepWith p (lineRead line rest s) = .next (asserted g n line rest s) := by
  rw [stepWith_dispatching (s := lineRead line rest s) hrst hst hvalid rfl, dispatchLine, hd]
  rfl

section
variable (g : Channel) (n : Nat) (line rest : Text) (s : State)

theorem asserting_asserted (hrst : s.rst = false) (hst : s.st = .idle) (hboot : s.boot = false) :
    Asserting g (asserted g n line rest s) := by
  constructor <;> simp [asserted, presented, lineRead, hrst, hst, hboot]

theorem asserted_sclk (c : Channel) : (asserted g n line rest s).sclk c = s.sclk c := by
  simp [asserted, presented, lineRead, State.sclk]

theorem asserted_defaultLength (c : Channel) : DefaultLength (asserted g n line rest s) c ↔ DefaultLength s c := by
  simp [asserted, presented, lineRead, DefaultLength]

end

/-- Settles O57: read, report and present, transmit, confirm, a step each. -/
theorem commandEndToEnd : Obligations.CommandEndToEnd := by
  intro p s g token ending rest n hrst hst hboot hvalid hfe hclk hlen htoken hend hparse hrx
  have hread := stepWith_lineRead (p := p) (line := g.keyword ++ ' ' :: token) hrst hst hvalid hfe
    (by simp [keyword_no_lf, htoken]) (by simp) (endsLine_command hend) hrx
  have hpresent := stepWith_lineRead_succeeds (p := p) rest hrst hst hvalid (dispatch_command hparse)
  have hasserting := asserting_asserted g n (g.keyword ++ ' ' :: token) rest s hrst hst hboot
  have hserve := stepWith_asserting (p := p) hasserting ((asserted_sclk _ _ _ _ _ _).trans hclk)
    ((asserted_defaultLength _ _ _ _ _ _).mpr hlen)
  rw [stepsWith_succ hread, stepsWith_succ hpresent, stepsWith_succ hserve, stepsWith_succ (stepWith_served hasserting)]
  simp [stepsWith, served, delivered, asserted, presented, lineRead, State.emit, State.setFe, State.setHeld,
    State.present, hfe, hvalid, zext16]

end Sys2Proof.Proofs.Commands
end

section
/-! The reference FSM cycle by cycle: its table, its dwell, its acceptance, its electrical times (40_transmit.md
section 3, 70_reset_and_hazards.md section 3). -/

namespace Sys2Proof.Proofs.Fsm

open Sys2Proof.Machine Sys2Proof.Safety Sys2Proof.Proofs.EngineInvariant Sys2Proof.Proofs.Transmit

/-! ### The table of R95 -/

theorem clearNext_of_lt {s : State} (h : s.clr.toNat < 4) :
    clearNext s = { loadTransmission (Channel.ofCode (s.clr.setWidth 2)) 0#16 s with clr := s.clr + 1#3 } :=
  if_pos h

theorem clearNext_of_ge {s : State} (h : 4 ≤ s.clr.toNat) : clearNext s = { s with boot := false, st := .idle } :=
  if_neg (Nat.not_lt.mpr h)

/-- With `DWELL = 1` each cycle is a whole FSM state (R96). -/
theorem dwellCycle_one (s : State) : dwellCycle 1 s = engineAdvance s :=
  if_neg (by omega)

/-- The first cycle of a wire-event state makes its line write (R95). -/
theorem writeLine_of_lineEvent {s : State} {e : WireEvent} (h0 : s.dw = 0) (he : lineEvent s = some e) :
    writeLine s = drive e s := by
  rw [writeLine, if_pos h0, he]

theorem lineEvent_isSome_iff (s : State) : (lineEvent s).isSome = true ↔ Transmitting s := by
  unfold lineEvent Transmitting
  cases s.st <;> simp

theorem fsmCycle_one {s : State} {e : WireEvent} (h0 : s.dw = 0) (he : lineEvent s = some e) :
    fsmCycle 1 s = transition (drive e s) := by
  have ht : Transmitting s := (lineEvent_isSome_iff s).mp (by simp [he])
  rw [fsmCycle_transmitting 1 s ht, dwellCycle_one, engineAdvance, writeLine_of_lineEvent h0 he]

/-- A row of the table for a wire-event state: entering the next state resets `dw`, which is 0 already. -/
theorem fsmCycle_row {s : State} {e : WireEvent} {st : EngineState} {n : BitVec 5} (h0 : s.dw = 0)
    (he : lineEvent s = some e)
    (ht : transition (drive e s) = { drive e s with cnt := n, st := st, dw := 0 }) :
    fsmCycle 1 s = { drive e s with cnt := n, st := st } := by
  have hdw : (drive e s).dw = 0 := h0
  rw [fsmCycle_one h0 he, ht, ← hdw]

/-- Settles O22: `clearNext` and `IDLE` directly, the five wire-event states by `fsmCycle_row`. -/
theorem fsmTransitionTable : Obligations.FsmTransitionTable := by
  intro s
  refine ⟨fun d hst hclr => ?_, fun d hst hclr => ?_, fun d hst hvalid => ?_, fun h0 hst => ?_, fun h0 hst => ?_,
    fun h0 hst => ?_, fun h0 hst => ?_, fun h0 hst => ?_⟩
  · rw [fsmCycle_clearNext d hst, clearNext_of_lt hclr]
    rfl
  · rw [fsmCycle_clearNext d hst, clearNext_of_ge hclr]
  · rw [fsmCycle_idle d hst, hvalid]
    rfl
  all_goals exact fsmCycle_row h0 (by rw [lineEvent, hst]) (by simp [transition, drive, hst, afterLatHi] <;> rfl)

/-! ### The dwell (R96) -/

/-- A transition writes registers only, so a whole FSM state leaves the lines and chains of its line write. -/
theorem engineAdvance_lines_chains (s : State) :
    (engineAdvance s).lines = (writeLine s).lines ∧ (engineAdvance s).chains = (writeLine s).chains :=
  ⟨PerChannel.ext_get fun c => congrArg Prod.fst (Steps.engineAdvance_lane s c),
    PerChannel.ext_get fun c => congrArg Prod.snd (Steps.engineAdvance_lane s c)⟩

theorem engineAdvance_st_ne {s : State} (ht : Transmitting s) : (engineAdvance s).st ≠ s.st := by
  have hst := writeLine_st s
  obtain ⟨hne, hnc⟩ := ht
  unfold engineAdvance transition
  cases h : s.st <;> simp_all [afterLatHi] <;> split <;> simp

section
variable {p : Params} {s : State} (hp : 1 ≤ p.dwell) (hs : Steady s) (ht : Transmitting s) (h0 : s.dw = 0)
include hs ht h0

theorem clockEdges_dwelling {k : Nat} (hpos : 0 < k) (hk : k < p.dwell) :
    clockEdges p k s = .next (dwelling k s) := by
  obtain ⟨n, rfl⟩ := Nat.exists_eq_add_one.mpr hpos
  exact dwell_inside p s hs ht h0 n hk

include hp in
/-- Through the whole dwell of a state, from its first cycle on, lines and chains are as its line write left them. -/
theorem clockEdges_lines_chains {k : Nat} (hpos : 0 < k) (hk : k ≤ p.dwell) :
    ∃ u, clockEdges p k s = .next u ∧ u.lines = (writeLine s).lines ∧ u.chains = (writeLine s).chains := by
  rcases hk.lt_or_eq with hlt | rfl
  · exact ⟨_, clockEdges_dwelling hs ht h0 hpos hlt, rfl, rfl⟩
  · exact ⟨_, dwell_whole p hp s hs ht h0, engineAdvance_lines_chains s⟩

end

theorem dwell_pos {p : Params} (h : p.wf = true) : 1 ≤ p.dwell := of_decide_eq_true h

theorem clearNext_st_ne (s : State) : (clearNext s).st ≠ .clearNext := by
  unfold clearNext
  split <;> simp [loadTransmission]

/-- Settles O23: `dwelling` inside the dwell and `engineAdvance` at its end; the two other states take one cycle. -/
theorem dwellIsExact : Obligations.DwellIsExact := by
  intro p s hp hrst hheld
  have hs : Steady s := ⟨hrst, hheld⟩
  refine ⟨fun ht h0 => ⟨fun k hpos hk => ?_, ?_⟩, fun hst => ?_, fun hst hvalid => ?_⟩
  · exact ⟨_, clockEdges_dwelling hs ht h0 hpos hk, (dwelling_regs k s).1, rfl, rfl, rfl⟩
  · exact ⟨_, dwell_whole p (dwell_pos hp) s hs ht h0, engineAdvance_st_ne ht, dw_engineAdvance ht,
      engineAdvance_lines_chains s⟩
  · refine ⟨_, hs.clockEdge p (by simp [hst]), ?_⟩
    rw [fsmCycle_clearNext _ hst]
    exact clearNext_st_ne s
  · refine ⟨_, clockEdge_fsm p s hrst hs.not_changed, ?_⟩
    rw [fsmCycle_idle _ hst, if_pos hvalid]
    rfl

/-! ### The times of a bit (R83, R201) -/

section
variable {s : State} (h : EngineInv s) (ht : Transmitting s)

/-- The data line after the line write: set in `SET_DATA`, kept in the clock's states. -/
theorem writeLine_sdata (hst : s.st ≠ .setData) (c : Channel) : (writeLine s).sdata c = s.sdata c := by
  rcases writeLine_cases s with hw | ⟨e, he, -, hw⟩
  · rw [hw]
  · rw [hw, drive_sdata, if_neg]
    rintro ⟨-, hdata⟩
    unfold lineEvent at he
    cases h : s.st <;> simp only [h] at he <;> cases he <;> simp_all

theorem writeLine_sdata_setData (hst : s.st = .setData) (h0 : s.dw = 0) :
    (writeLine s).sdata s.ch = s.sr.getLsbD (s.cnt - 1#5).toNat := by
  rw [writeLine_of_lineEvent h0 (by rw [lineEvent, hst]), drive_sdata, if_pos ⟨rfl, rfl⟩]

include h ht

theorem writeLine_sclk_ch : (writeLine s).sclk s.ch = decide (s.st = .clkHi) := by
  rw [Bool.eq_iff_iff, writeLine_sclk_iff h ht s.ch]
  simp

end

/-- A wire-event state of channel `c` about to begin, ports quiet, with data level `b` on the line after its line
write. -/
structure Begins (c : Channel) (b : Bool) (s : State) : Prop where
  inv     : EngineInv s
  steady  : Steady s
  running : Transmitting s
  dw      : s.dw = 0
  ch      : s.ch = c
  sdata   : (writeLine s).sdata c = b

section
variable {p : Params} {c : Channel} {b : Bool} {s : State} (hp : 1 ≤ p.dwell) (h : Begins c b s)
include h

include hp in
/-- For the whole dwell the data level stands, and the clock is high in `CLK_HI` alone. -/
theorem levels_in_dwell {k : Nat} (hpos : 0 < k) (hk : k ≤ p.dwell) :
    ∃ u, clockEdges p k s = .next u ∧ u.sdata c = b ∧ u.sclk c = decide (s.st = .clkHi) := by
  obtain ⟨u, hu, hlines, -⟩ := clockEdges_lines_chains hp h.steady h.running h.dw hpos hk
  have hclk := writeLine_sclk_ch h.inv h.running
  rw [h.ch] at hclk
  exact ⟨u, hu, by rw [State.sdata, hlines]; exact h.sdata, by rw [State.sclk, hlines]; exact hclk⟩

/-- The next state begins with the same data level, unless it is another `SET_DATA` or the transmission is over. -/
theorem begins_engineAdvance (ht : Transmitting (engineAdvance s)) (hst : (engineAdvance s).st ≠ .setData)
    (hch : (engineAdvance s).ch = s.ch) : Begins c b (engineAdvance s) := by
  refine ⟨engineInv_engineAdvance h.inv, h.steady.of_sameOutside (engineAdvance_sameOutside s), ht,
    dw_engineAdvance h.running, hch.trans h.ch, ?_⟩
  rw [writeLine_sdata hst, State.sdata, (engineAdvance_lines_chains s).1]
  exact h.sdata

end

theorem engineAdvance_setData {s : State} (hst : s.st = .setData) :
    (engineAdvance s).st = .clkHi ∧ (engineAdvance s).ch = s.ch := by
  obtain ⟨hst', hch, -⟩ := writeLine_regs s
  rw [engineAdvance, transition, hst', hst]
  exact ⟨rfl, hch⟩

theorem engineAdvance_clkHi {s : State} (hst : s.st = .clkHi) :
    (engineAdvance s).st = .clkLo ∧ (engineAdvance s).ch = s.ch := by
  obtain ⟨hst', hch, -⟩ := writeLine_regs s
  rw [engineAdvance, transition, hst', hst]
  exact ⟨rfl, hch⟩

theorem meetsMinimums_iff (p : Params) : p.meetsMinimums = true ↔
    p.tSu ≤ p.dwell * p.tClk ∧ p.tHd ≤ p.dwell * p.tClk ∧ p.tCkh ≤ p.dwell * p.tClk ∧ p.tCkl ≤ p.dwell * p.tClk ∧
      p.tLatw ≤ p.dwell * p.tClk ∧ p.tCl ≤ p.dwell * p.tClk := by
  simp [Params.meetsMinimums]

/-- Settles O26: `SET_DATA`, `CLK_HI` and `CLK_LO` of one bit, each held for its dwell. -/
theorem electricalMinimumsMet : Obligations.ElectricalMinimumsMet := by
  intro p s hp hmin hrst hheld hinv hst h0
  have hd := dwell_pos hp
  have hrun : Transmitting s := by simp [Transmitting, hst]
  have hset : Begins s.ch (s.sr.getLsbD (s.cnt - 1#5).toNat) s :=
    ⟨hinv, ⟨hrst, hheld⟩, hrun, h0, rfl, writeLine_sdata_setData hst h0⟩
  obtain ⟨hst1, hch1⟩ := engineAdvance_setData hst
  have hhigh := begins_engineAdvance hset (by simp [Transmitting, hst1]) (by simp [hst1]) hch1
  obtain ⟨hst2, hch2⟩ := engineAdvance_clkHi hst1
  have hlow := begins_engineAdvance hhigh (by simp [Transmitting, hst2]) (by simp [hst2]) hch2
  have hrun1 := dwell_whole p hd s hset.steady hset.running hset.dw
  have hrun2 := dwell_whole p hd _ hhigh.steady hhigh.running hhigh.dw
  refine ⟨fun k hpos hk => ?_, fun k hpos hk => ?_, fun k hpos hk => ?_, (meetsMinimums_iff p).mp hmin⟩
  · simpa [hst] using levels_in_dwell hd hset hpos hk
  · obtain ⟨j, rfl⟩ := Nat.exists_eq_add_of_lt hpos
    rw [Nat.add_assoc, clockEdges_add p _ _ _ _ hrun1]
    simpa [hst1] using levels_in_dwell hd hhigh j.succ_pos (by omega)
  · obtain ⟨j, rfl⟩ := Nat.exists_eq_add_of_lt hpos
    rw [Nat.two_mul, Nat.add_assoc, Nat.add_assoc, clockEdges_add p _ _ _ _ hrun1, clockEdges_add p _ _ _ _ hrun2]
    simpa [hst2] using levels_in_dwell hd hlow j.succ_pos (by omega)

/-! ### The FSM and what is outside the block -/

/-- The block and the chains of `s`, with the ports, the monitor, the front-end and the serial line of `o`. -/
def withOutside (o s : State) : State :=
  { o with
    lines := s.lines, st := s.st, ch := s.ch, sr := s.sr, cnt := s.cnt, dw := s.dw, boot := s.boot, clr := s.clr,
    chains := s.chains }

theorem withOutside_of_sameOutside {o s : State} (h : SameOutside o s) : withOutside o s = s := by
  obtain ⟨hrst, hvalid, hch, hvalue, hheld, hfe, hrx, htx⟩ := h
  rw [withOutside, ← hrst, ← hvalid, ← hch, ← hvalue, ← hheld, ← hfe, ← hrx, ← htx]

section
variable (o s : State)

theorem writeLine_withOutside : writeLine (withOutside o s) = withOutside o (writeLine s) := by
  have he : lineEvent (withOutside o s) = lineEvent s := rfl
  have hdw : (withOutside o s).dw = s.dw := rfl
  rw [writeLine, writeLine, he, hdw]
  split
  · cases lineEvent s <;> rfl
  · rfl

theorem clearNext_withOutside : clearNext (withOutside o s) = withOutside o (clearNext s) := by
  have hclr : (withOutside o s).clr = s.clr := rfl
  rw [clearNext, clearNext, hclr]
  split <;> rfl

theorem transition_withOutside : transition (withOutside o s) = withOutside o (transition s) := by
  have hst : (withOutside o s).st = s.st := rfl
  rw [transition, transition, hst]
  cases s.st with
  | clearNext => exact clearNext_withOutside o s
  | _ => rfl

theorem engineAdvance_withOutside : engineAdvance (withOutside o s) = withOutside o (engineAdvance s) := by
  rw [engineAdvance, engineAdvance, writeLine_withOutside, transition_withOutside]

variable {s} (d : Nat) (hst : s.st ≠ .idle)
include hst

/-- Outside `IDLE` the FSM looks at nothing outside the block. -/
theorem fsmCycle_withOutside : fsmCycle d (withOutside o s) = withOutside o (fsmCycle d s) := by
  by_cases ht : Transmitting s
  · have hdw : (withOutside o s).dw = s.dw := rfl
    rw [fsmCycle_transmitting d s ht, fsmCycle_transmitting d (withOutside o s) ht, dwellCycle, dwellCycle,
      hdw, writeLine_withOutside, engineAdvance_withOutside]
    split <;> rfl
  · have hclear : s.st = .clearNext := (not_transmitting_cases ht).resolve_left hst
    have hclear' : (withOutside o s).st = .clearNext := hclear
    rw [fsmCycle_clearNext d hclear, fsmCycle_clearNext d hclear', clearNext_withOutside]

omit o in
/-- Outside `IDLE` the FSM changes nothing outside the block. -/
theorem fsmCycle_sameOutside : SameOutside s (fsmCycle d s) := by
  by_cases ht : Transmitting s
  · rw [fsmCycle_transmitting d s ht, dwellCycle]
    split
    · exact (writeLine_sameOutside s).trans ⟨rfl, rfl, rfl, rfl, rfl, rfl, rfl, rfl⟩
    · exact engineAdvance_sameOutside s
  · rw [fsmCycle_clearNext d ((not_transmitting_cases ht).resolve_left hst)]
    exact clearNext_sameOutside s

end

/-! ### Acceptance (R94) -/

theorem clockEdge_accepted (p : Params) {s : State} (ha : accepts s = true) (hc : requestChanged s = false) :
    clockEdge p s = .next ((loadTransmission (Channel.ofCode s.reqCh) s.reqValue s).setHeld none) := by
  obtain ⟨hst, hrst, hvalid⟩ := (accepts_iff s).mp ha
  rw [clockEdge_fsm p s hrst hc, ha, fsmCycle_idle _ hst, hvalid]
  rfl

/-- Settles O21: in reset the ports are not looked at, and outside `IDLE` neither, by `fsmCycle_withOutside`. -/
theorem requestAcceptance : Obligations.RequestAcceptance := by
  refine ⟨fun p s hrst hst hvalid hc => clockEdge_accepted p ((accepts_iff s).mpr ⟨hst, hrst, hvalid⟩) hc,
    fun p s t valid ch value t' hbusy hedge hedge' => ?_⟩
  generalize ho : ({ s with reqValid := valid, reqCh := ch, reqValue := value, held := none } : State) = o at hedge'
  have hos : o = withOutside o s := by rw [← ho]; rfl
  have hquiet : requestChanged o = false := by rw [← ho]; rfl
  rcases clockEdge_cases p s with ⟨hrst, he⟩ | ⟨-, -, he⟩ | ⟨hrst, -, he⟩
  · have hrst' : o.rst = true := by rw [← ho]; exact hrst
    have hchains : o.chains = s.chains := by rw [← ho]
    obtain ⟨hlines, hst, hch, hsr, hcnt, hdw, hboot, hclr, -, -⟩ := resetEdge_regs s
    obtain ⟨hlines', hst', hch', hsr', hcnt', hdw', hboot', hclr', -, -⟩ := resetEdge_regs o
    cases he.symm.trans hedge
    cases (Reset.clockEdge_of_rst p hrst').symm.trans hedge'
    rw [hlines, hst, hch, hsr, hcnt, hdw, hboot, hclr, (resetEdge_chains s).1, (resetEdge_chains o).1]
    exact ⟨hlines', hchains, hst', hch', hsr', hcnt', hdw', hboot', hclr'⟩
  · cases he.symm.trans hedge
  · have hst : s.st ≠ .idle := fun hi => hbusy ⟨hi, hrst⟩
    have hrst' : o.rst = false := by rw [← ho]; exact hrst
    cases he.symm.trans hedge
    cases (clockEdge_fsm p o hrst' hquiet).symm.trans hedge'
    rw [hos, fsmCycle_withOutside o p.dwell hst]
    exact ⟨rfl, rfl, rfl, rfl, rfl, rfl, rfl, rfl, rfl⟩

end Sys2Proof.Proofs.Fsm
end

section
/-! Whole requests at clock level: the refinement of the step, and back-to-back requests (40_transmit.md section 3,
20_memory.md section 4, 70_reset_and_hazards.md section 3). -/

namespace Sys2Proof.Proofs.ClockRuns

open Sys2Proof.Machine Sys2Proof.Safety Sys2Proof.Proofs.Fsm

/-! ### The FSM states of one transmission -/

/-- One FSM state of a transmission keeps its channel and its value. -/
theorem engineAdvance_ch_sr {s : State} (ht : Transmitting s) :
    (engineAdvance s).ch = s.ch ∧ (engineAdvance s).sr = s.sr := by
  obtain ⟨hst, hch, hsr, -⟩ := writeLine_regs s
  obtain ⟨hne, hnc⟩ := ht
  rw [engineAdvance, transition, hst]
  cases h : s.st with
  | clearNext => exact absurd h hnc
  | _ => exact ⟨hch, hsr⟩

/-- `t` is at the beginning of a wire-event state of the transmission that is in progress in `s`. -/
structure SameTransmission (s t : State) : Prop where
  running : Transmitting t
  dw      : t.dw = 0
  ch      : t.ch = s.ch
  sr      : t.sr = s.sr

theorem engineRun_inside {m : Nat} {s : State} (hb : BitsLeft s) (h0 : s.dw = 0) (hm : m < remaining s) :
    SameTransmission s (engineRun m s) := by
  have ht : Transmitting s := hb.transmitting_iff.mpr (by omega)
  induction m generalizing s with
  | zero => exact ⟨ht, h0, rfl, rfl⟩
  | succ m ih =>
    obtain ⟨hr, hb', h0'⟩ := remaining_engineAdvance hb ht
    obtain ⟨hch, hsr⟩ := engineAdvance_ch_sr ht
    obtain ⟨hrun, hdw, hch', hsr'⟩ := ih hb' h0' (by omega) (hb'.transmitting_iff.mpr (by omega))
    exact ⟨hrun, hdw, hch'.trans hch, hsr'.trans hsr⟩

/-! ### The cycles of one transmission (R96, R98) -/

/-- Cycle `m * DWELL + j` of a transmission is cycle `j` of its FSM state `m`. -/
theorem clockEdges_inside {p : Params} (hp : 1 ≤ p.dwell) {s : State} (hs : Steady s) (hb : BitsLeft s)
    (h0 : s.dw = 0) {n : Nat} (hn : n < remaining s * p.dwell) :
    ∃ u, clockEdges p n s = .next u ∧ Transmitting u ∧ u.ch = s.ch ∧ u.sr = s.sr := by
  have hm : n / p.dwell < remaining s := Nat.div_lt_of_lt_mul (by rwa [Nat.mul_comm])
  obtain ⟨hrun, hdw, hch, hsr⟩ := engineRun_inside hb h0 hm
  have hstart := (clockEdges_engineRun p hp (n / p.dwell) s hs h0 hb hm.le).1
  have hsteady := hs.of_sameOutside (engineRun_sameOutside (n / p.dwell) s)
  rw [← Nat.div_add_mod' n p.dwell, clockEdges_add p _ _ _ _ hstart]
  rcases Nat.eq_zero_or_pos (n % p.dwell) with hz | hpos
  · rw [hz]
    exact ⟨_, rfl, hrun, hch, hsr⟩
  · obtain ⟨hst', hch', hsr', -⟩ := EngineInvariant.dwelling_regs (n % p.dwell) (engineRun (n / p.dwell) s)
    exact ⟨_, clockEdges_dwelling hsteady hrun hdw hpos (Nat.mod_lt n hp), by rwa [Transmitting, hst'],
      hch'.trans hch, hsr'.trans hsr⟩

/-! ### The wire events of the clock level (R95) -/

theorem clockTrace_add {p : Params} {m : Nat} {s t : State} (h : clockEdges p m s = .next t) (n : Nat) :
    clockTrace p (m + n) s = clockTrace p m s ++ clockTrace p n t := by
  induction m generalizing s with
  | zero =>
    cases h
    simp [clockTrace]
  | succ m ih =>
    rw [Nat.add_right_comm]
    simp only [clockEdges, clockTrace] at h ⊢
    cases he : clockEdge p s with
    | next u =>
      simp only [he] at h ⊢
      rw [ih h, List.append_assoc]
    | fault r => simp [he] at h
    | refused r => simp [he] at h

theorem clockTrace_one {p : Params} {s t : State} (h : clockEdge p s = .next t) :
    clockTrace p 1 s = (clockEvent s).toList := by
  simp [clockTrace, h]

theorem engineTrace_succ (m : Nat) (s : State) :
    engineTrace (m + 1) s = (lineEvent s).toList ++ engineTrace m (engineAdvance s) := by
  rw [engineTrace]
  cases lineEvent s <;> rfl

/-- The dwell of a wire-event state drives its one line write, in its first cycle. -/
theorem clockTrace_dwell {p : Params} {s : State} (hs : Steady s) (ht : Transmitting s) (h0 : s.dw = 0) {k : Nat}
    (hk : k + 1 ≤ p.dwell) : clockTrace p (k + 1) s = (lineEvent s).toList := by
  induction k with
  | zero =>
    have hevent : clockEvent s = lineEvent s := by rw [clockEvent, if_pos ⟨hs.rst, h0⟩]
    rw [clockTrace_one (hs.clockEdge p ht.1), hevent]
  | succ k ih =>
    have hin := clockEdges_dwelling hs ht h0 k.succ_pos (by omega : k + 1 < p.dwell)
    obtain ⟨hst, -⟩ := EngineInvariant.dwelling_regs (k + 1) s
    have hsteady : Steady (EngineInvariant.dwelling (k + 1) s) := hs.of_sameOutside
      ((writeLine_sameOutside s).trans ⟨rfl, rfl, rfl, rfl, rfl, rfl, rfl, rfl⟩)
    have hnone : clockEvent (EngineInvariant.dwelling (k + 1) s) = none := if_neg fun h => Nat.succ_ne_zero k h.2
    rw [clockTrace_add hin, ih (by omega), clockTrace_one (hsteady.clockEdge p (by rw [hst]; exact ht.1)), hnone,
      Option.toList_none, List.append_nil]

/-- `m` FSM states of a transmission drive, at clock level, their line writes in order. -/
theorem clockTrace_engineTrace {p : Params} (hp : 1 ≤ p.dwell) {m : Nat} {s : State} (hs : Steady s)
    (hb : BitsLeft s) (h0 : s.dw = 0) (hm : m ≤ remaining s) : clockTrace p (m * p.dwell) s = engineTrace m s := by
  induction m generalizing s with
  | zero => simp [clockTrace, engineTrace]
  | succ m ih =>
    have ht : Transmitting s := hb.transmitting_iff.mpr (by omega)
    obtain ⟨hr, hb', h0'⟩ := remaining_engineAdvance hb ht
    have hdwell : clockTrace p p.dwell s = (lineEvent s).toList := by
      obtain ⟨d, hd⟩ := Nat.exists_eq_add_one.mpr hp
      rw [hd, clockTrace_dwell hs ht h0 hd.ge]
    rw [Nat.succ_mul, Nat.add_comm, clockTrace_add (dwell_whole p hp s hs ht h0), hdwell, engineTrace_succ,
      ih (hs.of_sameOutside (engineAdvance_sameOutside s)) hb' h0' (by omega)]

/-! ### A loaded transmission -/

section
variable {p : Params} (hp : 1 ≤ p.dwell) (c : Channel) (v : Value) {s : State}
  (hs : Steady (loadTransmission c v s))
include hp hs

theorem clockTrace_transmission :
    clockTrace p ((3 * c.width + 2) * p.dwell) (loadTransmission c v s) = transmitEvents c v := by
  obtain ⟨hr, hb⟩ := remaining_load c v s
  rw [clockTrace_engineTrace hp hs hb rfl hr.ge, (engineRun_transmission c v s).2]

theorem clockEdges_transmission_inside {n : Nat} (hn : n < (3 * c.width + 2) * p.dwell) :
    ∃ u, clockEdges p n (loadTransmission c v s) = .next u ∧ Transmitting u ∧ u.ch = c ∧ u.sr = v := by
  obtain ⟨hr, hb⟩ := remaining_load c v s
  exact clockEdges_inside hp hs hb rfl (by rwa [hr])

end

/-! ### The refinement of a step (R98, log 1) -/

/-- The requester's release commutes with loading, and with running, the transmission of the word it presented. -/
theorem releaseRequest_load (c : Channel) (v : Value) (s : State) :
    releaseRequest ((loadTransmission c v s).setHeld none) = loadTransmission c v (releaseRequest s) := by
  have hfe : ((loadTransmission c v s).setHeld none).fe = s.fe := rfl
  rw [releaseRequest, releaseRequest, hfe]
  cases s.fe <;> rfl

theorem releaseRequest_runTransmission (c : Channel) (v : Value) (s : State) :
    releaseRequest (runTransmission c v s) = runTransmission c v (releaseRequest s) := by
  have hfe : (runTransmission c v s).fe = s.fe := (Delivery.runTransmission_sameOutside c v s).fe
  rw [releaseRequest, releaseRequest, hfe, Delivery.runTransmission_eq_setLane, Delivery.runTransmission_eq_setLane]
  cases s.fe <;> rfl

theorem steady_releaseRequest {s : State} (hrst : s.rst = false) : Steady (releaseRequest s) := by
  obtain ⟨hvalid, hheld, -⟩ := releaseRequest_ports s
  exact ⟨(releaseRequest_sameBlock s).rst.trans hrst, by rw [hheld, sampled, hvalid]; rfl⟩

theorem stepWith_accepts (p : Params) {s : State} (ha : accepts s = true) (hc : requestChanged s = false) :
    stepWith p s = .next (releaseRequest (runTransmission (Channel.ofCode s.reqCh) s.reqValue s)) :=
  Steps.stepWith_accepted p ha hc (by
    rw [State.portWord, decodeWord_append, exec_eq, Instr.transmit_channel, Instr.transmit_value])

theorem reqReady_of_transmitting {s : State} (h : Transmitting s) : s.reqReady = false := by
  simp [State.reqReady, h.1]

/-- Settles O24: the accepting edge loads the transmission, which then runs its `3W + 2` FSM states, `DWELL` cycles
each. -/
theorem clockLevelRefinesStep : Obligations.ClockLevelRefinesStep := by
  intro p s hp ha hc
  have hd := dwell_pos hp
  obtain ⟨-, hrst, -⟩ := (accepts_iff s).mp ha
  have hs : Steady (loadTransmission (Channel.ofCode s.reqCh) s.reqValue (releaseRequest s)) :=
    (steady_releaseRequest hrst).of_sameOutside ⟨rfl, rfl, rfl, rfl, rfl, rfl, rfl, rfl⟩
  refine ⟨_, runTransmission (Channel.ofCode s.reqCh) s.reqValue (releaseRequest s), clockEdge_accepted p ha hc, rfl,
    rfl, rfl, ?_⟩
  rw [releaseRequest_load, stepWith_accepts p ha hc, releaseRequest_runTransmission]
  refine ⟨(clockEdges_transmission p hd _ _ _ hs).1, rfl, clockTrace_transmission hd _ _ hs, fun n hn => ?_⟩
  obtain ⟨u, hu, hrun, -⟩ := clockEdges_transmission_inside hd _ _ hs hn
  exact ⟨u, hu, reqReady_of_transmitting hrun⟩

/-! ### The monitor catches up in one edge (R199) -/

/-- Outside `IDLE` an edge that raises no fault does not depend on what the monitor held. -/
theorem clockEdge_setHeld (p : Params) {s : State} (hrst : s.rst = false) (hst : s.st ≠ .idle) {w : Option ReqWord}
    (hc : requestChanged s = false) (hc' : requestChanged (s.setHeld w) = false) :
    clockEdge p (s.setHeld w) = clockEdge p s := by
  have ha : accepts s = false := by simp [accepts, State.reqReady, hst]
  have ha' : accepts (s.setHeld w) = false := ha
  have hcycle : (fsmCycle p.dwell (s.setHeld w)).setHeld (sampled s) = (fsmCycle p.dwell s).setHeld (sampled s) := by
    have hs : s.setHeld w = withOutside (s.setHeld w) s := rfl
    have hout := fsmCycle_sameOutside p.dwell hst
    rw [hs, fsmCycle_withOutside _ _ hst]
    nth_rw 2 [← withOutside_of_sameOutside hout]
    rfl
  rw [clockEdge_fsm p s hrst hc, clockEdge_fsm p (s.setHeld w) hrst hc', ha, ha']
  exact congrArg Host.Outcome.next hcycle

/-- A state out of reset whose word was not changed, with what its next edge samples already held. -/
theorem steady_setHeld_sampled {s : State} (hrst : s.rst = false) : Steady (s.setHeld (sampled s)) :=
  ⟨hrst, rfl⟩

theorem clockEdges_setHeld_sampled (p : Params) {s : State} (hrst : s.rst = false) (hst : s.st ≠ .idle)
    (hc : requestChanged s = false) {n : Nat} (hn : 0 < n) :
    clockEdges p n s = clockEdges p n (s.setHeld (sampled s)) := by
  obtain ⟨m, rfl⟩ := Nat.exists_eq_add_one.mpr hn
  rw [clockEdges, clockEdges, clockEdge_setHeld p hrst hst hc (steady_setHeld_sampled hrst).not_changed]

/-! ### A further request, presented and held (R198) -/

/-- `s` with a further request on the ports, which the block has sampled once without accepting it. -/
def waiting (code : BitVec 2) (value : Value) (s : State) : State :=
  (s.present code value).setHeld (some (code ++ value))

theorem steady_waiting (code : BitVec 2) (value : Value) {s : State} (hrst : s.rst = false) :
    Steady (waiting code value s) := ⟨hrst, rfl⟩

section
variable {p : Params} (hp : 1 ≤ p.dwell) (c : Channel) (v : Value) (code : BitVec 2) (value : Value) {s : State}
  (hrst : s.rst = false)
include hrst

theorem steady_load_waiting : Steady (loadTransmission c v (waiting code value s)) :=
  (steady_waiting code value hrst).of_sameOutside ⟨rfl, rfl, rfl, rfl, rfl, rfl, rfl, rfl⟩

/-- From the second cycle on the presented request is one the block has sampled. -/
theorem clockEdges_present {n : Nat} (hn : 0 < n) :
    clockEdges p n (((loadTransmission c v s).setHeld none).present code value) =
      clockEdges p n (loadTransmission c v (waiting code value s)) :=
  clockEdges_setHeld_sampled p (s := ((loadTransmission c v s).setHeld none).present code value) hrst
    (by simp [loadTransmission]) rfl hn

/-- When the transmission is over the waiting request is accepted, and its word is the one that was sampled. -/
theorem runTransmission_waiting_accepts (hboot : s.boot = false) :
    accepts (runTransmission c v (waiting code value s)) = true ∧
      requestChanged (runTransmission c v (waiting code value s)) = false := by
  have hout := Delivery.runTransmission_sameOutside c v (waiting code value s)
  obtain ⟨-, -, -, -, hst⟩ := Delivery.runTransmission_regs c v (waiting code value s)
  have hidle : afterLatHi (waiting code value s).boot = .idle := by simp [waiting, afterLatHi, hboot]
  exact ⟨(accepts_iff _).mpr ⟨hst.trans hidle, hout.rst.trans hrst, hout.reqValid⟩,
    ((steady_waiting code value hrst).of_sameOutside hout).not_changed⟩

include hp

/-- While the first transmission runs the waiting request is not accepted, and `ch` and `sr` stay. -/
theorem present_not_accepted {n : Nat} (hn : n < (3 * c.width + 2) * p.dwell) :
    ∃ y, clockEdges p n (((loadTransmission c v s).setHeld none).present code value) = .next y ∧
      accepts y = false ∧ y.ch = c ∧ y.sr = v := by
  rcases Nat.eq_zero_or_pos n with rfl | hpos
  · exact ⟨_, rfl, rfl, rfl, rfl⟩
  · obtain ⟨y, hy, hrun, hch, hsr⟩ :=
      clockEdges_transmission_inside hp c v (steady_load_waiting c v code value hrst) hn
    refine ⟨y, (clockEdges_present c v code value hrst hpos).trans hy, ?_, hch, hsr⟩
    rw [accepts, reqReady_of_transmitting hrun, Bool.false_and]

end

/-- Settles O25: the waiting request is accepted by the state in which the first transmission ends. -/
theorem backToBackRequests : Obligations.BackToBackRequests := by
  intro p s code value hp ha hc hboot hclk hlen
  have hd := dwell_pos hp
  obtain ⟨-, hrst, -⟩ := (accepts_iff s).mp ha
  generalize hch : Channel.ofCode s.reqCh = c at *
  have hpos : 0 < (3 * c.width + 2) * p.dwell := Nat.mul_pos (Nat.succ_pos _) hd
  have hend := (clockEdges_transmission p hd c s.reqValue _
    (steady_load_waiting c s.reqValue code value hrst)).1
  obtain ⟨hat, hct⟩ := runTransmission_waiting_accepts c s.reqValue code value hrst hboot
  have hout := Delivery.runTransmission_sameOutside c s.reqValue (waiting code value s)
  have houts : (runTransmission c s.reqValue (waiting code value s)).chains.get c =
      { stages := bitsLsbFirst c.width s.reqValue, outs := bitsLsbFirst c.width s.reqValue } := by
    rw [Delivery.runTransmission_eq_delivered _ (s := waiting code value s) hclk hlen, Delivery.delivered_chain]
  refine ⟨_, _, _, clockEdge_accepted p ha hc, ?_, by rw [houts], hat, clockEdge_accepted p hat hct, ?_, ?_, rfl,
    fun n hn => ?_⟩
  · rw [hch, clockEdges_present c s.reqValue code value hrst hpos, hend]
  · exact congrArg Channel.ofCode hout.reqCh
  · exact hout.reqValue
  · rw [hch]
    obtain ⟨y, hy, hay, hcs⟩ := present_not_accepted hd c s.reqValue code value hrst hn
    exact ⟨y, hy, hay, fun _ => hcs⟩

end Sys2Proof.Proofs.ClockRuns
end

section
/-! The startup clear as a run, at clock level and at the level of `step`, and reset in a transmission
(70_reset_and_hazards.md sections 1 and 4). -/

namespace Sys2Proof.Proofs.Startup

open Sys2Proof.Machine Sys2Proof.Safety Sys2Proof.Proofs.Reset

/-! ### The state after each round -/

/-- The state after the round of the startup clear for channel `c` (R191, R89). -/
def afterRound (c : Channel) (s : State) : State :=
  { delivered c 0#16 s with clr := BitVec.ofNat 3 (c.index + 1) }

/-- The fifth visit of `CLEAR_NEXT`. -/
def clearEnded (s : State) : State := { s with boot := false, st := .idle }

/-- Visit `n` of `CLEAR_NEXT`, with what makes a round deliver zero: low clocks and chains of default length. -/
structure RoundReady (n : Nat) (s : State) : Prop where
  visit  : ClearVisit n s
  clkLow : ∀ c, s.sclk c = false
  length : ∀ c, DefaultLength s c

theorem roundReady_of_inReset {s : State} (h : InReset s) (hlen : ∀ c, DefaultLength s c) : RoundReady 0 s :=
  ⟨clearVisit_of_inReset h, fun c => by rw [State.sclk, h.lines c], hlen⟩

theorem runTransmission_eq_afterRound {c : Channel} {s : State} (h : RoundReady c.index s) :
    runTransmission c 0#16 { s with clr := BitVec.ofNat 3 (c.index + 1) } = afterRound c s :=
  Delivery.runTransmission_eq_delivered 0#16 (h.clkLow c) (h.length c)

theorem roundReady_afterRound {c : Channel} {s : State} (h : RoundReady c.index s) :
    RoundReady (c.index + 1) (afterRound c s) := by
  refine ⟨⟨?_, h.visit.boot, rfl⟩, fun e => ?_, fun e => ?_⟩
  · simp [afterRound, delivered, h.visit.boot, afterLatHi]
  · have hclk := h.clkLow e
    rw [State.sclk] at hclk ⊢
    by_cases he : e = c <;> simp [afterRound, delivered, PerChannel.get_set, he, hclk]
  · have hlen := h.length e
    rw [DefaultLength] at hlen ⊢
    by_cases he : e = c <;> simp [afterRound, delivered, PerChannel.get_set, he, hlen]

theorem afterRound_sameOutside (c : Channel) (s : State) : SameOutside s (afterRound c s) :=
  ⟨rfl, rfl, rfl, rfl, rfl, rfl, rfl, rfl⟩

/-- The rounds of all four channels and the fifth visit write every register and every chain of R22's second column. -/
theorem clearEnded_rounds (s : State) :
    clearEnded (afterRound .D (afterRound .C (afterRound .B (afterRound .A s)))) = clearedState s := rfl

/-! ### Runs that are not idle on the way -/

/-- `n` moves of `run` lead from `s` to `t`, and the engine is not idle before. -/
def RunsTo (run : Nat → State → Host.Outcome State Fault Refusal) (n : Nat) (s t : State) : Prop :=
  run n s = .next t ∧ ∀ k, k < n → ∃ u, run k s = .next u ∧ u.st ≠ .idle

/-- A level of the model at which the startup clear runs: a run function that composes, a condition `Quiet` on what is
outside the block, under which a round takes `moves c` moves and the fifth visit one. -/
structure ClearLevel (run : Nat → State → Host.Outcome State Fault Refusal) (Quiet : State → Prop)
    (moves : Channel → Nat) : Prop where
  add   : ∀ {m n s t}, run m s = .next t → run (m + n) s = run n t
  quiet : ∀ {s t}, Quiet s → SameOutside s t → Quiet t
  round : ∀ {c s}, Quiet s → RoundReady c.index s → RunsTo run (moves c) s (afterRound c s)
  last  : ∀ {s}, Quiet s → ClearVisit 4 s → RunsTo run 1 s (clearEnded s)

section
variable {run : Nat → State → Host.Outcome State Fault Refusal} {Quiet : State → Prop} {moves : Channel → Nat}
  (level : ClearLevel run Quiet moves)
include level

theorem runsTo_trans {m n : Nat} {s t u : State} (h : RunsTo run m s t) (h' : RunsTo run n t u) :
    RunsTo run (m + n) s u := by
  obtain ⟨hrun, hbusy⟩ := h
  obtain ⟨hrun', hbusy'⟩ := h'
  refine ⟨(level.add hrun).trans hrun', fun k hk => ?_⟩
  by_cases hlt : k < m
  · exact hbusy k hlt
  · obtain ⟨v, hv, hst⟩ := hbusy' (k - m) (by omega)
    refine ⟨v, ?_, hst⟩
    rw [← Nat.add_sub_of_le (Nat.not_lt.mp hlt), level.add hrun, hv]

/-- The whole startup clear: a round for each channel in the order of R191, and the fifth visit. -/
theorem startupClear_runsTo {s : State} (hq : Quiet s) (h : RoundReady 0 s) :
    RunsTo run (moves .A + moves .B + moves .C + moves .D + 1) s (clearedState s) := by
  have readyB := roundReady_afterRound (c := .A) h
  have readyC := roundReady_afterRound (c := .B) readyB
  have readyD := roundReady_afterRound (c := .C) readyC
  have readyLast := roundReady_afterRound (c := .D) readyD
  have quietB := level.quiet hq (afterRound_sameOutside .A s)
  have quietC := level.quiet quietB (afterRound_sameOutside .B _)
  have quietD := level.quiet quietC (afterRound_sameOutside .C _)
  have quietLast := level.quiet quietD (afterRound_sameOutside .D _)
  have runA := level.round (c := .A) hq h
  have runB := level.round (c := .B) quietB readyB
  have runC := level.round (c := .C) quietC readyC
  have runD := level.round (c := .D) quietD readyD
  rw [← clearEnded_rounds]
  exact runsTo_trans level
    (runsTo_trans level (runsTo_trans level (runsTo_trans level runA runB) runC) runD)
    (level.last quietLast readyLast.visit)

end

/-! ### At clock level -/

theorem clearNext_of_last {s : State} (h : ClearVisit 4 s) : clearNext s = clearEnded s :=
  EngineInvariant.clearNext_end h.clr

theorem clockLevel {p : Params} (hp : 1 ≤ p.dwell) :
    ClearLevel (clockEdges p) Steady fun c => 1 + (3 * c.width + 2) * p.dwell where
  add h := clockEdges_add p _ _ _ _ h
  quiet := Steady.of_sameOutside
  round {c s} hs h := by
    have hround := clockEdges_clear_one p hp c s hs h.visit.st h.visit.clr
    rwa [runTransmission_eq_afterRound h] at hround
  last {s} hs h := by
    have hne : s.st ≠ .idle := by simp [h.st]
    refine ⟨?_, fun k hk => ⟨s, by rw [Nat.lt_one_iff.mp hk]; rfl, hne⟩⟩
    rw [clockEdges_succ p 0 s _ (hs.clockEdge p hne), EngineInvariant.fsmCycle_clearNext _ h.st, clearNext_of_last h]
    rfl

theorem clockEdges_startupClear {p : Params} (hp : 1 ≤ p.dwell) {s : State} (hs : Steady s) (h : RoundReady 0 s) :
    RunsTo (clockEdges p) (5 + 176 * p.dwell) s (clearedState s) := by
  have hcycles : 1 + (3 * Channel.A.width + 2) * p.dwell + (1 + (3 * Channel.B.width + 2) * p.dwell) +
      (1 + (3 * Channel.C.width + 2) * p.dwell) + (1 + (3 * Channel.D.width + 2) * p.dwell) + 1 =
        5 + 176 * p.dwell := by
    simp only [Channel.width]
    omega
  exact hcycles ▸ startupClear_runsTo (clockLevel hp) hs h

/-- Settles O32: after one edge the monitor holds what the ports show, so the whole run is that of quiet ports. -/
theorem startupClearState : Obligations.StartupClearState := by
  intro p s hp h hrst hc hlen
  have hne : s.st ≠ .idle := by simp [h.st]
  have hrun := clockEdges_startupClear (Fsm.dwell_pos hp) (ClockRuns.steady_setHeld_sampled hrst)
    (roundReady_of_inReset (s := s.setHeld (sampled s)) ⟨h.lines, h.st, h.ch, h.sr, h.cnt, h.dw, h.boot, h.clr⟩ hlen)
  have catchUp {n : Nat} (hn : 0 < n) := ClockRuns.clockEdges_setHeld_sampled p hrst hne hc hn
  refine ⟨(catchUp (by omega)).trans hrun.1, fun n hn => ?_⟩
  rcases Nat.eq_zero_or_pos n with rfl | hpos
  · exact ⟨s, rfl, reqReady_of_inReset h⟩
  · obtain ⟨u, hu, hst⟩ := hrun.2 n hn
    exact ⟨u, (catchUp hpos).trans hu, by simp [State.reqReady, hst]⟩

/-- Settles O33: the reset edge leaves the reset column and the chains as they were; the rest is O32. -/
theorem resetAbandonsTransmission : Obligations.ResetAbandonsTransmission := by
  intro p s hp _ _ hrst hlen
  obtain ⟨hchains, -⟩ := resetEdge_chains s
  obtain ⟨-, -, -, -, -, -, -, -, hheld, -⟩ := resetEdge_regs s
  obtain ⟨hlines, hst, hch, hsr, hcnt, hdw, hboot, hclr⟩ := inReset_resetEdge s
  have hclear := startupClearState p { resetEdge s with rst := false } hp
    ⟨hlines, hst, hch, hsr, hcnt, hdw, hboot, hclr⟩ rfl (MachineInvariant.requestChanged_of_held_none hheld)
    (fun c => by rw [DefaultLength, hchains]; exact hlen c)
  refine ⟨_, _, clockEdge_of_rst p hrst, fun c => by rw [State.slatch, hlines c], hchains, hclear.1, fun c => ?_, rfl⟩
  simp [clearedState]

/-! ### At the level of `step` (log 1) -/

theorem stepsWith_add {p : Params} {m n : Nat} {s t : State} (h : stepsWith p m s = .next t) :
    stepsWith p (m + n) s = stepsWith p n t := by
  induction m generalizing s with
  | zero =>
    cases h
    rw [Nat.zero_add]
  | succ m ih =>
    rw [Nat.add_right_comm]
    simp only [stepsWith] at h ⊢
    cases hs : stepWith p s with
    | next u =>
      simp only [hs] at h ⊢
      exact ih h
    | fault r => simp [hs] at h
    | refused r => simp [hs] at h

/-- Out of reset, nothing presented and nothing held, and the front-end waiting for the end of the startup clear: only
the engine moves. -/
structure AwaitsClear (s : State) : Prop where
  rst      : s.rst = false
  reqValid : s.reqValid = false
  held     : s.held = none
  fe       : s.fe = .awaitClear

theorem AwaitsClear.of_sameOutside {s t : State} (h : AwaitsClear s) (hst : SameOutside s t) : AwaitsClear t :=
  ⟨hst.rst.trans h.rst, hst.reqValid.trans h.reqValid, hst.held.trans h.held, hst.fe.trans h.fe⟩

theorem stepWith_awaitsClear (p : Params) {s : State} (h : AwaitsClear s) (hst : s.st ≠ .idle) :
    stepWith p s = .next (engineAdvance s) := by
  have hc := MachineInvariant.requestChanged_of_held_none h.held
  have hheld : (engineAdvance s).setHeld none = engineAdvance s := by
    rw [← (engineAdvance_sameOutside s).held.trans h.held]
    rfl
  simp [stepWith, h.rst, hc, accepts, h.reqValid, agentMove, h.fe, hst, sampled, hheld]

theorem stepsWith_eq_engineRun (p : Params) {n : Nat} {s : State} (h : AwaitsClear s)
    (hbusy : ∀ k, k < n → (engineRun k s).st ≠ .idle) : stepsWith p n s = .next (engineRun n s) := by
  induction n generalizing s with
  | zero => rfl
  | succ n ih =>
    rw [Commands.stepsWith_succ (stepWith_awaitsClear p h (hbusy 0 n.succ_pos))]
    exact ih (h.of_sameOutside (engineAdvance_sameOutside s)) fun k hk => hbusy (k + 1) (Nat.succ_lt_succ hk)

theorem stepsWith_engineRun (p : Params) {n : Nat} {s : State} (h : AwaitsClear s)
    (hbusy : ∀ k, k < n → (engineRun k s).st ≠ .idle) : RunsTo (stepsWith p) n s (engineRun n s) :=
  ⟨stepsWith_eq_engineRun p h hbusy, fun k hk =>
    ⟨_, stepsWith_eq_engineRun p h fun j hj => hbusy j (hj.trans hk), hbusy k hk⟩⟩

theorem engineRun_round_not_idle {c : Channel} {s : State} (h : ClearVisit c.index s) {k : Nat}
    (hk : k < roundStates c) : (engineRun k s).st ≠ .idle := by
  cases k with
  | zero => simp [engineRun, h.st]
  | succ k =>
    rw [engineRun, engineAdvance_clearNext s h.st, clearNext_load c s h.clr]
    obtain ⟨hr, hb⟩ := remaining_load c 0#16 { s with clr := BitVec.ofNat 3 (c.index + 1) }
    exact (ClockRuns.engineRun_inside hb rfl (by rw [hr]; unfold roundStates at hk; omega)).running.1

theorem stepLevel (p : Params) : ClearLevel (stepsWith p) AwaitsClear roundStates where
  add := stepsWith_add
  quiet := AwaitsClear.of_sameOutside
  round {c s} hs h := by
    have hround := stepsWith_engineRun p hs fun k hk => engineRun_round_not_idle h.visit hk
    rwa [roundStates, (engineRun_clear_one c s h.visit.st h.visit.clr).1, runTransmission_eq_afterRound h] at hround
  last {s} hs h := by
    have hne : ∀ k, k < 1 → (engineRun k s).st ≠ .idle := fun k hk => by
      rw [Nat.lt_one_iff.mp hk, engineRun, h.st]
      simp
    have hlast := stepsWith_engineRun p hs hne
    rwa [engineRun, engineRun, engineAdvance_clearNext s h.st, clearNext_of_last h] at hlast

/-- The front-end's startup output (R141). -/
theorem stepWith_startupOutput (p : Params) {s : State} (hrst : s.rst = false) (hvalid : s.reqValid = false)
    (hfe : s.fe = .startup) : stepWith p s = .next ((startupOutput s).setHeld none) := by
  have hc : requestChanged s = false := by
    unfold requestChanged
    cases s.held <;> simp [hvalid]
  simp [stepWith, hrst, hc, accepts, hvalid, agentMove, hfe, sampled]

/-- The front-end's output at the end of the startup clear (R141). -/
theorem stepWith_clearOver (p : Params) {s : State} (h : AwaitsClear s) (hst : s.st = .idle) :
    stepWith p s = .next (((s.emit [.banner, .usageHelp]).setFe .idle).setHeld none) := by
  have hready : s.reqReady = true := (Status.reqReady_iff s).mpr ⟨hst, h.rst⟩
  rw [stepWith_frontEnd p s h.rst hst h.reqValid (by simp [h.fe]), frontEndMove, h.fe]
  dsimp only
  rw [if_pos hready]

/-- Settles O59: the startup output, the startup clear at the level of `step`, and the output at its end. -/
theorem startupRun : Obligations.StartupRun := by
  intro p s h hrst hvalid hfe hlen
  have houtput := stepWith_startupOutput p hrst hvalid hfe
  have hawaits : AwaitsClear ((startupOutput s).setHeld none) := ⟨hrst, hvalid, rfl, rfl⟩
  have hready : RoundReady 0 ((startupOutput s).setHeld none) :=
    roundReady_of_inReset ⟨h.lines, h.st, h.ch, h.sr, h.cnt, h.dw, h.boot, h.clr⟩ hlen
  have hclear : stepsWith p 181 _ = _ := (startupClear_runsTo (stepLevel p) hawaits hready).1
  have hover := stepWith_clearOver p (s := clearedState ((startupOutput s).setHeld none))
    ⟨hrst, hvalid, rfl, rfl⟩ rfl
  refine (Commands.stepsWith_succ houtput).trans ((stepsWith_add (n := 1) hclear).trans
    ((Commands.stepsWith_succ hover).trans ?_))
  simp [stepsWith, clearedState, startupOutput, State.emit, State.setFe, State.setHeld]

end Sys2Proof.Proofs.Startup
end
